-- ==== Sys2Proof/Word.lean ====
section
/-! DEFINITION. The bit-vector types of the SRV core and the two extreme 64-bit values (00_scope R7, R8, R9). -/

namespace Sys2Proof

/-- A register value, an immediate, a pc or a branch address: 64 bits (R7, R8). -/
abbrev Word := BitVec 64

/-- One instruction word: 128 bits (30_encoding R71). -/
abbrev InstrWord := BitVec 128

/-- One byte of a serialised program (20_memory R55). -/
abbrev Byte := BitVec 8

/-- The storage of the comparison flag: 2 bits, two's complement (10_state R28). -/
abbrev Flag := BitVec 2

/-- INT64_MIN = -2^63 (00_scope R9). -/
abbrev int64Min : Word := 0x8000000000000000#64

/-- INT64_MAX = 2^63 - 1 (00_scope R9). -/
abbrev int64Max : Word := 0x7FFFFFFFFFFFFFFF#64

end Sys2Proof
end

