-- ==== Sys2Proof/Machine/Alu.lean ====
section
/-! DEFINITION. The 64-bit wrap-around ALU (42_arithmetic R130 to R137): each operation computes over the mathematical
integers and narrows at the end. -/

namespace Sys2Proof.Machine

/-- `wrap64(n)`: the 64-bit value congruent to n modulo 2^64 (00_scope R9). -/
def wrap64 (n : Int) : Word := BitVec.ofInt 64 n

/-- The sum (42_arithmetic R130, R134). -/
def aluAdd (a b : Word) : Word := wrap64 (a.toInt + b.toInt)

/-- The difference (42_arithmetic R131, R134). -/
def aluSub (a b : Word) : Word := wrap64 (a.toInt - b.toInt)

/-- The low 64 bits of the exact product (42_arithmetic R132, R134). -/
def aluMul (a b : Word) : Word := wrap64 (a.toInt * b.toInt)

/-- The quotient, rounded toward zero (42_arithmetic R133, R135), and INT64_MIN for INT64_MIN / -1 (R137; assumption
log 11). The caller has checked that b is not 0. -/
def aluDiv (a b : Word) : Word :=
  if a = int64Min ∧ b = -1 then int64Min else wrap64 (Int.tdiv a.toInt b.toInt)

end Sys2Proof.Machine
end

