-- ==== Sys2Proof/Config.lean ====
section
/-! DEFINITION. What an implementation of the SRV core fixes: the capacity of its instruction store, the one OPEN
parameter of the spec (00_scope R8; 92_eei_decisions D7; assumption log 7). -/

namespace Sys2Proof.Config

/-- IMEM_DEPTH - 1. It has no body a proof can see, so what is proved holds for every capacity the spec allows. -/
opaque imemDepthPred : Fin 18446744073709551615

/-- IMEM_DEPTH, the capacity of the instruction store in instructions, with 1 <= IMEM_DEPTH <= 2^64 - 1 (R8). -/
def imemDepth : Nat := imemDepthPred.val + 1

end Sys2Proof.Config
end

