-- ==== Sys2Proof/Syntax.lean ====
section
/-! DEFINITION. The structured instruction of the SRV core (30_encoding R70): twelve tagged values, one constructor per
row of spec/opcode_table.json, and the reasons a word is no instruction (R80). -/

namespace Sys2Proof

/-- An operand: a register index or a literal signed 64-bit integer (30_encoding R70). The index is a natural number, as
in the structured form; the word has room for indices below 256 only (R76), which `Instr.wellFormed` says. -/
inductive Operand where
  /-- `Reg(i)` -/
  | reg (i : Nat)
  /-- `Imm(v)` -/
  | imm (v : Word)
  deriving DecidableEq, Repr

/-- The twelve instructions (00_scope R2; 30_encoding R70). -/
inductive Instr where
  /-- MOV: destination index, source operand (41_move R120) -/
  | mov (rd : Nat) (src : Operand)
  /-- ADD: destination index, source operand (42_arithmetic R130) -/
  | add (rd : Nat) (src : Operand)
  /-- SUB: destination index, source operand (42_arithmetic R131) -/
  | sub (rd : Nat) (src : Operand)
  /-- MUL: destination index, source operand (42_arithmetic R132) -/
  | mul (rd : Nat) (src : Operand)
  /-- DIV: destination index, source operand (42_arithmetic R133) -/
  | div (rd : Nat) (src : Operand)
  /-- CMP: compared index, source operand (43_compare R150) -/
  | cmp (rd : Nat) (src : Operand)
  /-- JMP: absolute instruction index (44_control R161) -/
  | jmp (addr : Word)
  /-- JE: absolute instruction index (44_control R162) -/
  | je (addr : Word)
  /-- JNE: absolute instruction index (44_control R163) -/
  | jne (addr : Word)
  /-- JG: absolute instruction index (44_control R164) -/
  | jg (addr : Word)
  /-- JL: absolute instruction index (44_control R165) -/
  | jl (addr : Word)
  /-- HALT (44_control R166) -/
  | halt
  deriving DecidableEq, Repr

/-- Why a 128-bit word is invalid (30_encoding R80), one name per check of `decode` (R79). -/
inductive Invalid where
  /-- OPC is 0x00 or 0x0D to 0xFF (R78) -/
  | opcode
  /-- format RO with RES0 or RES1 not 0 (R72) -/
  | reserved
  /-- format RO with K = 0 and P not 0 (R72) -/
  | payload
  /-- format RO with K = 1 and RS not 0 (R72) -/
  | sourceIndex
  /-- format B with a bit of W[63:8] set (R73) -/
  | branchBits
  /-- format N with a bit of W[127:8] set (R74) -/
  | haltBits
  deriving DecidableEq, Repr

end Sys2Proof
end

