-- ==== Sys2Proof/WellFormed.lean ====
section
/-! DEFINITION. Which structured instructions the 128-bit word can hold (30_encoding R76, R82): those whose register
indices are below 256. An index from 10 to 255 is well formed and fails only when it is executed (10_state R22). -/

namespace Sys2Proof

/-- An operand whose index fits the 8-bit field RS (30_encoding R76). Every immediate is encodable (R75). -/
def Operand.wellFormed : Operand → Bool
  | .reg i => decide (i < 256)
  | .imm _ => true

/-- An instruction whose register indices fit the 8-bit fields RD and RS (30_encoding R76). Every branch address is
encodable (R77). -/
def Instr.wellFormed : Instr → Bool
  | .mov rd src => decide (rd < 256) && src.wellFormed
  | .add rd src => decide (rd < 256) && src.wellFormed
  | .sub rd src => decide (rd < 256) && src.wellFormed
  | .mul rd src => decide (rd < 256) && src.wellFormed
  | .div rd src => decide (rd < 256) && src.wellFormed
  | .cmp rd src => decide (rd < 256) && src.wellFormed
  | .jmp _ => true
  | .je _ => true
  | .jne _ => true
  | .jg _ => true
  | .jl _ => true
  | .halt => true

end Sys2Proof
end

