-- ==== Sys2Proof/Decode.lean ====
section
/-! DEFINITION. The decoder, total on 128-bit words (30_encoding R79), the encoder (R82), and the byte order of a
serialised program (20_memory R55). -/

namespace Sys2Proof

/-! ### The fields of a word (30_encoding R71) -/

/-- OPC = W[7:0] -/
def fieldOpc (w : InstrWord) : BitVec 8 := w.extractLsb' 0 8
/-- K = W[8] -/
def fieldK (w : InstrWord) : BitVec 1 := w.extractLsb' 8 1
/-- RES0 = W[15:9] -/
def fieldRes0 (w : InstrWord) : BitVec 7 := w.extractLsb' 9 7
/-- RD = W[23:16] -/
def fieldRd (w : InstrWord) : BitVec 8 := w.extractLsb' 16 8
/-- RS = W[31:24] -/
def fieldRs (w : InstrWord) : BitVec 8 := w.extractLsb' 24 8
/-- RES1 = W[63:32] -/
def fieldRes1 (w : InstrWord) : BitVec 32 := w.extractLsb' 32 32
/-- P = W[127:64] -/
def fieldP (w : InstrWord) : Word := w.extractLsb' 64 64
/-- W[63:8], which format B wants 0 (30_encoding R73) -/
def fieldLow56 (w : InstrWord) : BitVec 56 := w.extractLsb' 8 56
/-- W[127:8], which format N wants 0 (30_encoding R74) -/
def fieldHigh120 (w : InstrWord) : BitVec 120 := w.extractLsb' 8 120

/-! ### Decoding (30_encoding R79) -/

/-- Format RO (30_encoding R72): the operand kind K chooses `Reg(RS)` or `Imm(s64(P))`, and the field the other kind
uses must be 0. -/
def decodeRO (mk : Nat → Operand → Instr) (w : InstrWord) : Except Invalid Instr :=
  if fieldRes0 w ≠ 0 ∨ fieldRes1 w ≠ 0 then .error .reserved
  else if fieldK w = 0 then
    if fieldP w ≠ 0 then .error .payload
    else .ok (mk (fieldRd w).toNat (.reg (fieldRs w).toNat))
  else if fieldRs w ≠ 0 then .error .sourceIndex
  else .ok (mk (fieldRd w).toNat (.imm (fieldP w)))

/-- Format B (30_encoding R73): ADDR = u64(P). -/
def decodeB (mk : Word → Instr) (w : InstrWord) : Except Invalid Instr :=
  if fieldLow56 w ≠ 0 then .error .branchBits else .ok (mk (fieldP w))

/-- Format N (30_encoding R74). -/
def decodeN (i : Instr) (w : InstrWord) : Except Invalid Instr :=
  if fieldHigh120 w ≠ 0 then .error .haltBits else .ok i

/-- The instruction a word stands for, or the reason it is invalid (30_encoding R78, R79, R80). -/
def decode (w : InstrWord) : Except Invalid Instr :=
  match (fieldOpc w).toNat with
  | 0x01 => decodeRO .mov w
  | 0x02 => decodeRO .add w
  | 0x03 => decodeRO .sub w
  | 0x04 => decodeRO .mul w
  | 0x05 => decodeRO .div w
  | 0x06 => decodeRO .cmp w
  | 0x07 => decodeB .jmp w
  | 0x08 => decodeB .je w
  | 0x09 => decodeB .jne w
  | 0x0A => decodeB .jg w
  | 0x0B => decodeB .jl w
  | 0x0C => decodeN .halt w
  | _ => .error .opcode

/-- A word is valid when it decodes to an instruction (30_encoding R80). -/
def validWord (w : InstrWord) : Bool :=
  match decode w with
  | .ok _ => true
  | .error _ => false

/-- The instruction the decoder reads from an instruction whose bits are `w`, numbered as spec/opcode_table.json numbers
them. Every instruction is one 128-bit word (30_encoding R71, R81), so a number with a bit at 128 or above is none, and so
is a row said to be longer than 128 bits. -/
def decodeTableWord (nbits w : Nat) : Option Instr :=
  if nbits ≤ 128 ∧ w < 2 ^ 128 then (decode (BitVec.ofNat 128 w)).toOption else none

/-! ### Encoding (30_encoding R82) -/

/-- The opcode byte of each instruction (30_encoding R78). -/
def opcode : Instr → BitVec 8
  | .mov _ _ => 0x01
  | .add _ _ => 0x02
  | .sub _ _ => 0x03
  | .mul _ _ => 0x04
  | .div _ _ => 0x05
  | .cmp _ _ => 0x06
  | .jmp _ => 0x07
  | .je _ => 0x08
  | .jne _ => 0x09
  | .jg _ => 0x0A
  | .jl _ => 0x0B
  | .halt => 0x0C

/-- A word of format RO from its fields (30_encoding R71): P, RES1 = 0, RS, RD, RES0 = 0, K, OPC from the top down. -/
def packRO (opc : BitVec 8) (k : BitVec 1) (rd rs : BitVec 8) (p : Word) : InstrWord :=
  (p ++ 0#32 ++ rs ++ rd ++ 0#7 ++ k ++ opc).cast rfl

/-- A word of format B from its fields (30_encoding R73). -/
def packB (opc : BitVec 8) (a : Word) : InstrWord := (a ++ 0#56 ++ opc).cast rfl

/-- A word of format N from its opcode (30_encoding R74). -/
def packN (opc : BitVec 8) : InstrWord := (0#120 ++ opc).cast rfl

/-- The word of a register-operand instruction (30_encoding R82). -/
def encodeRO (opc : BitVec 8) (rd : Nat) : Operand → InstrWord
  | .reg rs => packRO opc 0 (BitVec.ofNat 8 rd) (BitVec.ofNat 8 rs) 0
  | .imm v => packRO opc 1 (BitVec.ofNat 8 rd) 0 v

/-- The word of a well-formed instruction (30_encoding R82). -/
def encode : Instr → InstrWord
  | .mov rd src => encodeRO 0x01 rd src
  | .add rd src => encodeRO 0x02 rd src
  | .sub rd src => encodeRO 0x03 rd src
  | .mul rd src => encodeRO 0x04 rd src
  | .div rd src => encodeRO 0x05 rd src
  | .cmp rd src => encodeRO 0x06 rd src
  | .jmp a => packB 0x07 a
  | .je a => packB 0x08 a
  | .jne a => packB 0x09 a
  | .jg a => packB 0x0A a
  | .jl a => packB 0x0B a
  | .halt => packN 0x0C

/-! ### A program as bytes (20_memory R55) -/

/-- The 16 bytes of a word, least significant byte first (20_memory R55). -/
def wordBytes (w : InstrWord) : List Byte :=
  (List.range 16).map fun j => w.extractLsb' (8 * j) 8

/-- The word whose bytes are given, least significant byte first (20_memory R55). -/
def wordOfBytes : List Byte → InstrWord
  | [] => 0
  | b :: bs => (wordOfBytes bs <<< 8) ||| b.setWidth 128

/-- A program as bytes: instruction k at byte offsets 16k to 16k + 15 (20_memory R55). -/
def serialise (p : List InstrWord) : List Byte := p.flatMap wordBytes

/-- The program of `n` words that a byte string holds (20_memory R55), `none` if it is not 16n bytes long. -/
def deserialise : Nat → List Byte → Option (List InstrWord)
  | 0, bs => if bs = [] then some [] else none
  | n + 1, bs =>
    if bs.length < 16 then none
    else (deserialise n (bs.drop 16)).map (wordOfBytes (bs.take 16) :: ·)

end Sys2Proof
end

