-- ==== Sys2Proof/Machine/State.lean ====
section
/-! DEFINITION. The state of one SRV core as plain data (10_state, opening table), the state after RESET (R36), and the
reasons a step of the model stops. -/

namespace Sys2Proof.Machine

/-- The run state (10_state R31). -/
inductive Mode where
  /-- constructed or loaded, not yet started -/
  | idle
  /-- the PC sequencer is stepping -/
  | running
  /-- successful termination -/
  | halted
  /-- termination by an error, whose kind is in `err` -/
  | faulted
  deriving DecidableEq, Repr

/-- The exactly three error kinds (60_exceptions R180). -/
inductive ErrorKind where
  /-- a register index outside 0..9 (R181) -/
  | invalidRegister
  /-- DIV whose resolved source operand is 0 (R182) -/
  | divisionByZero
  /-- a taken branch whose target is outside [0, N) (R183) -/
  | invalidProgramCounter
  deriving DecidableEq, Repr

/-- What the host presents on `host_cmd`, with `load_words` where it is LOAD (70_reset R210); `load_len` is the length of
the list. -/
inductive HostCmd where
  /-- 0: nothing; the core has the move -/
  | none
  /-- 1: RESET (R212) -/
  | reset
  /-- 2: LOAD of the given words (R213) -/
  | load (words : List InstrWord)
  /-- 3: START (R214) -/
  | start
  deriving DecidableEq, Repr

/-- The instruction store: IStore[0..N-1], with N its length (10_state R30; 20_memory R50, R51; assumption log 9). -/
abbrev Memory := List InstrWord

/-- The state of the core (10_state, opening table), with the port `load_ok` and the commands the host will present. -/
structure State where
  /-- x[0..9], the general registers R0 to R9 (R20 to R23) -/
  x : Vector Word 10
  /-- the program counter, an instruction index (R24 to R27) -/
  pc : Word
  /-- the comparison flag, two's complement (R28, R29) -/
  cf : Flag
  /-- the instruction store; N is its length (R30) -/
  istore : Memory
  /-- the run state (R31) -/
  mode : Mode
  /-- the error kind of the last fault, `none` for code 0 (R32) -/
  err : Option ErrorKind
  /-- the output port `load_ok` (70_reset R210, R213; assumption log 3) -/
  loadOk : Bool
  /-- the model's own field: what the host will present on `host_cmd`, one command per move, the next one first
  (70_reset R221; assumption log 2) -/
  hostCmds : List HostCmd
  deriving DecidableEq, Repr

/-- The state after RESET (10_state R36; 70_reset R212). `loadOk` and `hostCmds` are DESIGN CHOICE (assumption log 3
and 2). -/
def State.reset : State where
  x := Vector.replicate 10 0
  pc := 0
  cf := 0
  istore := []
  mode := .idle
  err := none
  loadOk := false
  hostCmds := []

/-- Why a move of the model stops with a fault. The spec's own errors are NOT here: they enter mode FAULTED, which is a
next state (60_exceptions R185). -/
inductive Fault where
  /-- Raised by `hostLoad` when the host presents LOAD in RUNNING, which it must not do and for which the spec gives no
  move (70_reset R213; 92_eei_decisions D14; assumption log 6). Safe: the model stops where the hardware might go on. -/
  | loadWhileRunning
  deriving DecidableEq, Repr

/-- Why a move of the model is refused. -/
inductive Refusal where
  /-- For an instruction of Dispatch.lean that has no meaning yet; no arm answers it now. Safe: it stops. -/
  | notModelled (mnemonic : String)
  /-- Raised by `coreStep` when the word at pc is invalid, for the reason given; the spec wants the step refused
  (30_encoding R80; 93 U4; assumption log 5). Safe: a refused step proves nothing of that program. -/
  | invalidWord (why : Invalid)
  deriving DecidableEq, Repr

end Sys2Proof.Machine
end

