-- ==== Sys2Proof/Machine/Ops.lean ====
section
/-! DEFINITION. The named operations over the state that every instruction shares: registers, pc, flag, the end of a run,
entering a fault (60_exceptions R185), the instruction store, and the fetch (40_cycle R100). -/

namespace Sys2Proof.Machine

/-- The outcomes of a move of the model. -/
abbrev Result := Host.Outcome State Fault Refusal

/-! ### Registers, pc and flag -/

/-- `x[i]` read through the index check: InvalidRegister unless 0 <= i < 10 (10_state R22; 40_cycle R104). -/
def readReg (i : Nat) (s : State) : Except ErrorKind Word :=
  match s.x[i]? with
  | some v => .ok v
  | none => .error .invalidRegister

/-- `x[i] <- v` (00_scope R10). Every handler checks the index before it writes (40_cycle R105); an index of 10 or more
names no register, and nothing would be written. -/
def State.writeReg (i : Nat) (v : Word) (s : State) : State := { s with x := s.x.setIfInBounds i v }

/-- `pc <- t` (00_scope R10). -/
def State.setPc (t : Word) (s : State) : State := { s with pc := t }

/-- `cf <- f` (00_scope R10). -/
def State.setCf (f : Flag) (s : State) : State := { s with cf := f }

/-- The pre-advance of the PC sequencer: `pc <- pc + 1`, before execution (40_cycle R100, R107). -/
def State.preAdvance (s : State) : State := { s with pc := s.pc + 1 }

/-! ### The end of a run -/

/-- Successful termination: `mode <- HALTED` (40_cycle R100, R102). -/
def State.endRun (s : State) : State := { s with mode := .halted }

/-- Taking an error, the one way an instruction fails: `mode <- FAULTED; err <- code(E)`, and nothing else
(60_exceptions R185). There is no return from it but the host's LOAD or RESET (R187). -/
def State.raise (e : ErrorKind) (s : State) : State := { s with mode := .faulted, err := some e }

/-- The result of a run: x[0] when the mode is HALTED, no value otherwise (10_state R33; 70_reset R215). -/
def State.runResult (s : State) : Option Word :=
  match s.mode with
  | .halted => some s.x[0]
  | _ => none

/-! ### The instruction store -/

/-- N, the number of instructions in the store (10_state R30). -/
def State.n (s : State) : Nat := s.istore.length

/-- The form of a store the host can have loaded: it fits the capacity, and every word is valid (30_encoding R80;
70_reset R213). -/
def Memory.wf (m : Memory) : Bool := decide (m.length ≤ Config.imemDepth) && m.all validWord

/-- The word at index k, `none` where k is not below N: no such index is ever fetched (20_memory R51). -/
def Memory.read (m : Memory) (k : Nat) : Option InstrWord := m[k]?

/-- The fetch of 40_cycle R100: `none` when pc >= N; otherwise what the word at pc decodes to. -/
def fetch (s : State) : Option (Except Invalid Instr) := (Memory.read s.istore s.pc.toNat).map decode

end Sys2Proof.Machine
end

