-- ==== Sys2Proof/Machine/Operands.lean ====
section
/-! DEFINITION. The operand resolver (40_cycle R104) and the handler order of the register-operand instructions (R105). -/

namespace Sys2Proof.Machine

/-- The operand resolver, pure over the register file (40_cycle R104). -/
def val (op : Operand) (s : State) : Except ErrorKind Word :=
  match op with
  | .reg i => readReg i s
  | .imm v => .ok v

/-- The shape of every register-operand handler (40_cycle R105): validate RD, resolve the source, then hand x[RD] and the
source's value to the effect. The first check that fails raises its error, and nothing is written
(60_exceptions R184, R186). -/
def withOperands (rd : Nat) (src : Operand) (s : State) (effect : Word → Word → Result) : Result :=
  match readReg rd s with
  | .error e => .next (s.raise e)
  | .ok a =>
    match val src s with
    | .error e => .next (s.raise e)
    | .ok b => effect a b

end Sys2Proof.Machine
end

