-- ==== Sys2Proof/Machine/Arithmetic.lean ====
section
/-! DEFINITION. Integer arithmetic: ADD, SUB, MUL, DIV (42_arithmetic R130 to R137). None writes cf. -/

namespace Sys2Proof.Machine

/-- ADD: x[RD] <- wrap64(x[RD] + val(src)) (R130). -/
def execAdd (rd : Nat) (src : Operand) (s : State) : Result :=
  withOperands rd src s fun a b => .next (s.writeReg rd (aluAdd a b))

/-- SUB: x[RD] <- wrap64(x[RD] - val(src)) (R131). -/
def execSub (rd : Nat) (src : Operand) (s : State) : Result :=
  withOperands rd src s fun a b => .next (s.writeReg rd (aluSub a b))

/-- MUL: x[RD] <- wrap64(x[RD] * val(src)) (R132). -/
def execMul (rd : Nat) (src : Operand) (s : State) : Result :=
  withOperands rd src s fun a b => .next (s.writeReg rd (aluMul a b))

/-- DIV: DivisionByZero when val(src) = 0, checked after both indices; else x[RD] <- trunc(x[RD] / val(src)) (R133;
60_exceptions R182, R184). -/
def execDiv (rd : Nat) (src : Operand) (s : State) : Result :=
  withOperands rd src s fun a b =>
    if b = 0 then .next (s.raise .divisionByZero) else .next (s.writeReg rd (aluDiv a b))

end Sys2Proof.Machine
end

