-- ==== Sys2Proof/Machine/Flags.lean ====
section
/-! DEFINITION. The comparison-flag unit (43_compare R150 to R153) and its 2-bit storage (10_state R28). -/

namespace Sys2Proof.Machine

/-- sign(a - b) over the mathematical integers, by a direct three-way compare (43_compare R150, R151), stored as -1, 0 or
+1 in 2 bits (10_state R28; assumption log 1). -/
def compareFlag (a b : Word) : Flag :=
  if a.toInt < b.toInt then 0b11#2 else if a.toInt = b.toInt then 0b00#2 else 0b01#2

/-- EQ(cf): cf = 0 (43_compare R153). -/
def flagEq (cf : Flag) : Bool := decide (cf.toInt = 0)

/-- NE(cf): cf != 0 (43_compare R153). -/
def flagNe (cf : Flag) : Bool := decide (cf.toInt ≠ 0)

/-- GT(cf): cf > 0 (43_compare R153). -/
def flagGt (cf : Flag) : Bool := decide (0 < cf.toInt)

/-- LT(cf): cf < 0 (43_compare R153). -/
def flagLt (cf : Flag) : Bool := decide (cf.toInt < 0)

end Sys2Proof.Machine
end

