-- ==== Sys2Proof/Machine/Compare.lean ====
section
/-! DEFINITION. Comparison: CMP (43_compare R150), the only writer of cf (10_state R29). -/

namespace Sys2Proof.Machine

/-- CMP: cf <- the three-way signed compare of x[RD] with val(src); no register is written (R150). -/
def execCmp (rd : Nat) (src : Operand) (s : State) : Result :=
  withOperands rd src s fun a b => .next (s.setCf (compareFlag a b))

end Sys2Proof.Machine
end

