-- ==== Sys2Proof/Machine/Control.lean ====
section
/-! DEFINITION. Control transfer: JMP, JE, JNE, JG, JL, HALT (44_control R160 to R166). They run after the pre-advance, so
pc already holds k + 1. -/

namespace Sys2Proof.Machine

/-- The common branch action `take(ADDR)`: the range [0, N) is checked before pc is written (R160). -/
def take (addr : Word) (s : State) : Result :=
  if addr.toNat < s.n then .next (s.setPc addr) else .next (s.raise .invalidProgramCounter)

/-- A conditional branch: an untaken one leaves pc at k + 1 and never checks its target (R160). -/
def branchIf (taken : Bool) (addr : Word) (s : State) : Result :=
  if taken then take addr s else .next s

/-- JMP (R161). -/
def execJmp (addr : Word) (s : State) : Result := take addr s

/-- JE: taken when cf = 0 (R162). -/
def execJe (addr : Word) (s : State) : Result := branchIf (flagEq s.cf) addr s

/-- JNE: taken when cf != 0 (R163). -/
def execJne (addr : Word) (s : State) : Result := branchIf (flagNe s.cf) addr s

/-- JG: taken when cf > 0 (R164). -/
def execJg (addr : Word) (s : State) : Result := branchIf (flagGt s.cf) addr s

/-- JL: taken when cf < 0 (R165). -/
def execJl (addr : Word) (s : State) : Result := branchIf (flagLt s.cf) addr s

/-- HALT: the run ends successfully; pc keeps k + 1 (R166). -/
def execHalt (s : State) : Result := .next s.endRun

end Sys2Proof.Machine
end

