-- ==== Sys2Proof/Machine/Move.lean ====
section
/-! DEFINITION. Data movement: MOV (41_move R120). -/

namespace Sys2Proof.Machine

/-- MOV: x[RD] <- val(src); cf is unchanged (R120). -/
def execMov (rd : Nat) (src : Operand) (s : State) : Result :=
  withOperands rd src s fun _ b => .next (s.writeReg rd b)

end Sys2Proof.Machine
end

