-- ==== Sys2Proof/Machine/Dispatch.lean ====
section
/-! DEFINITION. The dispatch: one arm per instruction, exhaustive (40_cycle R106). -/

namespace Sys2Proof.Machine

/-- `execute(I)` (40_cycle R106), on the state after the pre-advance, with the returned signal applied to mode and err
(R100; assumption log 10). -/
def exec (i : Instr) (s : State) : Host.Outcome State Fault Refusal :=
  match i with
  | .mov rd src => Sys2Proof.Machine.execMov rd src s
  | .add rd src => Sys2Proof.Machine.execAdd rd src s
  | .sub rd src => Sys2Proof.Machine.execSub rd src s
  | .mul rd src => Sys2Proof.Machine.execMul rd src s
  | .div rd src => Sys2Proof.Machine.execDiv rd src s
  | .cmp rd src => Sys2Proof.Machine.execCmp rd src s
  | .jmp addr => Sys2Proof.Machine.execJmp addr s
  | .je addr => Sys2Proof.Machine.execJe addr s
  | .jne addr => Sys2Proof.Machine.execJne addr s
  | .jg addr => Sys2Proof.Machine.execJg addr s
  | .jl addr => Sys2Proof.Machine.execJl addr s
  | .halt => Sys2Proof.Machine.execHalt s

end Sys2Proof.Machine
end

