-- ==== Sys2Proof/Machine/HostPort.lean ====
section
/-! DEFINITION. The host interface (70_reset R210 to R221): the transactions RESET, LOAD and START, each one atomic move,
and READ, which only observes. -/

namespace Sys2Proof.Machine

/-! ### The input port -/

/-- The command the host presents at this move; an empty schedule presents 0, none (R210; assumption log 2). -/
def State.hostCmd (s : State) : HostCmd := s.hostCmds.headD .none

/-- The state once this move's command is taken off the schedule. -/
def State.popHost (s : State) : State := { s with hostCmds := s.hostCmds.tail }

/-- The 2-bit value of `host_cmd` (R210). -/
def HostCmd.code : HostCmd → BitVec 2
  | .none => 0
  | .reset => 1
  | .load _ => 2
  | .start => 3

/-- The LOAD command of a program the host sends as bytes, with its length in words; no command where the bytes are not
that many words (R210; 20_memory R55). -/
def loadOfBytes (len : Nat) (bytes : List Byte) : Option HostCmd := (deserialise len bytes).map .load

/-! ### The transactions -/

/-- RESET: every piece of state to its reset value, in every mode (R212). What the host presents next is no state of the
core and stays. -/
def hostReset (s : State) : State := { State.reset with hostCmds := s.hostCmds }

/-- LOAD's check: every word valid and |P| <= IMEM_DEPTH (R213). -/
def loadAccepted (p : List InstrWord) : Bool := Memory.wf p

/-- The effect of an accepted LOAD; x and cf are kept (R213, R219). -/
def State.loadProgram (p : List InstrWord) (s : State) : State :=
  { s with istore := p, pc := 0, mode := .idle, err := none, loadOk := true }

/-- The effect of a rejected LOAD: `load_ok` is 0 and no state changes (R213). -/
def State.rejectLoad (s : State) : State := { s with loadOk := false }

/-- LOAD(P): the host must not issue it in RUNNING, and then there is no move (R213; assumption log 6). -/
def hostLoad (p : List InstrWord) (s : State) : Result :=
  match s.mode with
  | .running => .fault .loadWhileRunning
  | _ => if loadAccepted p then .next (s.loadProgram p) else .next s.rejectLoad

/-- START: IDLE to RUNNING; no effect in any other mode (R214). -/
def hostStart (s : State) : State :=
  match s.mode with
  | .idle => { s with mode := .running }
  | _ => s

/-! ### The output ports -/

/-- The encoding of `mode` (10_state R31). -/
def Mode.code : Mode → BitVec 2
  | .idle => 0b00
  | .running => 0b01
  | .halted => 0b10
  | .faulted => 0b11

/-- The encoding of `err` (10_state R32; 60_exceptions R180). -/
def errCode : Option ErrorKind → BitVec 2
  | none => 0
  | some .invalidRegister => 1
  | some .divisionByZero => 2
  | some .invalidProgramCounter => 3

/-- The output ports (R210). -/
structure Ports where
  loadOk : BitVec 1
  mode : BitVec 2
  err : BitVec 2
  /-- x[0], meaningful only when the mode is HALTED -/
  result : Word
  dbgX : Vector Word 10
  dbgPc : Word
  dbgCf : BitVec 2
  dbgN : BitVec 64
  deriving DecidableEq, Repr

/-- READ: the output ports, between any two moves, in any mode, with no side effect (R220; 60_exceptions R192). -/
def readPorts (s : State) : Ports where
  loadOk := BitVec.ofBool s.loadOk
  mode := s.mode.code
  err := errCode s.err
  result := s.x[0]
  dbgX := s.x
  dbgPc := s.pc
  dbgCf := s.cf
  dbgN := BitVec.ofNat 64 s.n

end Sys2Proof.Machine
end

