-- ==== Sys2Proof/Machine/Step.lean ====
section
/-! DEFINITION. One move of the model: the host's transaction if it presents one, otherwise one step of the core
(40_cycle R100; 70_reset R221). -/

namespace Sys2Proof.Machine

/-- One step of the core (40_cycle R100). It is enabled only in RUNNING; in any other mode nothing happens and the state
stays (assumption log 4). -/
def coreStep (s : State) : Host.Outcome State Fault Refusal :=
  match s.mode with
  | .running =>
    match fetch s with
    | none => .next s.endRun
    | some (.error why) => .refused (.invalidWord why)
    | some (.ok i) => exec i s.preAdvance
  | _ => .next s

/-- One move: what the host presents on `host_cmd` is taken, and where it presents none the core steps
(70_reset R210, R221; assumption log 2). -/
def step (s : State) : Host.Outcome State Fault Refusal :=
  match s.hostCmd with
  | .none => coreStep s.popHost
  | .reset => .next (hostReset s.popHost)
  | .load p => hostLoad p s.popHost
  | .start => .next (hostStart s.popHost)

/-- The state with one instruction word where the next step fetches: the core is RUNNING, the host presents nothing, and
the store holds the word at pc. A store too short to reach pc is filled up with the same word. It stands for the host's
LOAD and START (assumption log 8). -/
def State.withFetchWord (s : State) (nbits w : Nat) : State :=
  let word : InstrWord := BitVec.ofNat 128 (w % 2 ^ nbits)
  let k := s.pc.toNat
  { s with
    mode := .running
    hostCmds := []
    istore := (s.istore ++ List.replicate (k + 1 - s.istore.length) word).set k word }

end Sys2Proof.Machine
end

