-- ==== Sys2Proof/Safety.lean ====
section
/-! DEFINITION. The terms claims about the SRV core are stated in: the invariant of the machine (40_cycle R109), whose move
it is (70_reset R221), what an operand is worth (40_cycle R104), the classes of instructions the rules speak of, and
the formats of a word (30_encoding R72, R73). -/

namespace Sys2Proof.Machine

/-- What holds of every state the machine can be in between two moves (10_state R25, R28, R30, R32; 40_cycle R109). -/
structure Inv (s : State) : Prop where
  /-- 0 <= pc <= N (R109 a) -/
  pc_le : s.pc.toNat ≤ s.istore.length
  /-- cf is -1, 0 or +1; the pattern 0b10 never occurs (R109 c; 10_state R28) -/
  cf_sign : s.cf ≠ 0b10#2
  /-- the store fits the capacity and holds valid words only (10_state R30; 30_encoding R80) -/
  store_wf : Memory.wf s.istore = true
  /-- err holds an error kind exactly in FAULTED (10_state R32) -/
  err_iff : s.mode = .faulted ↔ s.err ≠ none

/-- It is the core's move: the host presents nothing and the core runs (40_cycle R100; 70_reset R221). -/
def CoreMoves (s : State) : Prop := s.hostCmd = .none ∧ s.mode = .running

/-- The value an operand has in a state; an invalid register index has none (40_cycle R104). -/
def OperandIs (s : State) (op : Operand) (v : Word) : Prop :=
  op = .imm v ∨ ∃ (i : Nat) (h : i < 10), op = .reg i ∧ s.x[i] = v

/-- An operand that names a register outside 0..9 (10_state R22). -/
def OperandInvalid (op : Operand) : Prop := ∃ i, op = .reg i ∧ 10 ≤ i

/-- The core's move fetches a valid word that stands for `i` (40_cycle R100). -/
def Fetches (s : State) (i : Instr) : Prop :=
  ∃ h : s.pc.toNat < s.istore.length, decode s.istore[s.pc.toNat] = .ok i

/-- The instructions that write register `rd` when they succeed (10_state R23). -/
def WritesReg (rd : Nat) (i : Instr) : Prop :=
  ∃ src, i = .mov rd src ∨ i = .add rd src ∨ i = .sub rd src ∨ i = .mul rd src ∨ i = .div rd src

/-- The branches to `addr` that are taken in `s` (44_control R161 to R165). -/
def Taken (s : State) (addr : Word) (i : Instr) : Prop :=
  i = .jmp addr ∨ (i = .je addr ∧ s.cf.toInt = 0) ∨ (i = .jne addr ∧ s.cf.toInt ≠ 0) ∨
  (i = .jg addr ∧ 0 < s.cf.toInt) ∨ (i = .jl addr ∧ s.cf.toInt < 0)

/-- The register-operand instructions, whose handlers check both indices (30_encoding R70; 40_cycle R105). -/
def RegisterOperand (rd : Nat) (src : Operand) (i : Instr) : Prop :=
  i = .mov rd src ∨ i = .add rd src ∨ i = .sub rd src ∨ i = .mul rd src ∨ i = .div rd src ∨ i = .cmp rd src

/-- The branches that name the target `addr` (30_encoding R70). -/
def BranchTo (addr : Word) (i : Instr) : Prop :=
  i = .jmp addr ∨ i = .je addr ∨ i = .jne addr ∨ i = .jg addr ∨ i = .jl addr

/-- A program LOAD accepts: every word valid, and |P| <= IMEM_DEPTH (70_reset R213). -/
def Loadable (p : List InstrWord) : Prop :=
  p.length ≤ Config.imemDepth ∧ ∀ w ∈ p, ∃ i, decode w = .ok i

/-- A word of format RO with the given opcode: the reserved fields are 0, and so is the field the operand kind does not
use (30_encoding R72). -/
def FormatRO (opc : BitVec 8) (w : InstrWord) : Prop :=
  w.extractLsb' 0 8 = opc ∧ w.extractLsb' 9 7 = 0 ∧ w.extractLsb' 32 32 = 0 ∧
  ((w.getLsbD 8 = false ∧ w.extractLsb' 64 64 = 0) ∨ (w.getLsbD 8 = true ∧ w.extractLsb' 24 8 = 0))

/-- A word of format B with the given opcode and address (30_encoding R73). -/
def FormatB (opc : BitVec 8) (addr : Word) (w : InstrWord) : Prop :=
  w.extractLsb' 0 8 = opc ∧ w.extractLsb' 8 56 = 0 ∧ w.extractLsb' 64 64 = addr

end Sys2Proof.Machine
end

