-- ==== Sys2Proof/Certificates/Slice0/Obligations.lean ====
section
/-! DEFINITION. The statements about the SRV core, taken from the numbered rules of spec/. `CoreMoves` and `hostCmd` say
whose move it is through the model's own field `hostCmds` (assumption log 2); where a statement says that a move takes one
command off that list, that is the model's choice. -/

open Sys2Proof Sys2Proof.Machine

/-! ### Encoding (30_encoding) -/

/-- R82: decoding the word of an instruction whose register indices are below 256 gives the instruction back. -/
def Obligations.DecodeOfEncode : Prop :=
  ∀ i : Instr, i.wellFormed = true → decode (encode i) = .ok i

/-- R82: encoding what a valid word decodes to gives the word back, and its register indices are below 256. -/
def Obligations.EncodeOfDecode : Prop :=
  ∀ (w : InstrWord) (i : Instr), decode w = .ok i → encode i = w ∧ i.wellFormed = true

/-- R72, R73, R74, R78, R80: a word is valid exactly when it meets the constraints of one of the three formats. -/
def Obligations.ValidWordForm : Prop :=
  ∀ w : InstrWord, (∃ i, decode w = .ok i) ↔
    (∃ opc : BitVec 8, 1 ≤ opc.toNat ∧ opc.toNat ≤ 6 ∧ FormatRO opc w) ∨
    (∃ (opc : BitVec 8) (addr : Word), 7 ≤ opc.toNat ∧ opc.toNat ≤ 11 ∧ FormatB opc addr w) ∨ w = 0x0C#128

/-- R84: a few of the worked encodings, one at least for each format. -/
def Obligations.DecodeWorkedWords : Prop :=
  decode 0x000000000000002A_0000000000000101#128 = .ok (.mov 0 (.imm 42)) ∧
  decode 0x0000000000000001_00000000000A0101#128 = .ok (.mov 10 (.imm 1)) ∧
  decode 0x0000000000000000_0000000001000005#128 = .ok (.div 0 (.reg 1)) ∧
  decode 0xFFFFFFFFFFFFFFFF_0000000000030102#128 = .ok (.add 3 (.imm (-1))) ∧
  decode 0x0000000000000063_0000000000000009#128 = .ok (.jne 99) ∧
  decode 0x0000000000000000_000000000000000C#128 = .ok .halt

/-- R55: byte j of instruction k of a serialised program stands at offset 16k + j and holds bits 8j to 8j + 7, and the
bytes give the program back. -/
def Obligations.SerialisedProgram : Prop :=
  ∀ p : List InstrWord,
    (∀ (k j : Nat) (h : k < p.length), j < 16 → (serialise p)[16 * k + j]? = some (p[k].extractLsb' (8 * j) 8)) ∧
    (serialise p).length = 16 * p.length ∧ deserialise p.length (serialise p) = some p

/-! ### Reset, load and the host interface (10_state R36; 70_reset) -/

/-- The state after RESET that the model starts from: the values of R36. The port `load_ok` and the host's schedule, which
the spec gives no value, are not spoken of. -/
def Obligations.ResetState : Prop :=
  (∀ (i : Nat) (h : i < 10), State.reset.x[i] = 0) ∧ State.reset.pc = 0 ∧ State.reset.cf = 0 ∧
  State.reset.istore = [] ∧ State.reset.mode = .idle ∧ State.reset.err = none ∧ State.reset.runResult = none

/-- R36: what RESET and an accepted LOAD leave in every piece of state, from every state (LOAD: outside a run). -/
def Obligations.ResetAndLoadValues : Prop :=
  (∀ s : State, s.hostCmd = .reset → ∃ t, step s = .next t ∧ (∀ (i : Nat) (h : i < 10), t.x[i] = 0) ∧ t.pc = 0 ∧
    t.cf = 0 ∧ t.istore = [] ∧ t.mode = .idle ∧ t.err = none ∧ t.runResult = none) ∧
  (∀ (s : State) (p : List InstrWord), s.hostCmd = .load p → s.mode ≠ .running → Loadable p →
    ∃ t, step s = .next t ∧ t.x = s.x ∧ t.pc = 0 ∧ t.cf = s.cf ∧ t.istore = p ∧ t.n = p.length ∧ t.mode = .idle ∧
      t.err = none ∧ t.runResult = none)

/-- R213: LOAD outside a run. Accepted, it answers load_ok = 1 and replaces store, pc, mode and err only; rejected, it
answers load_ok = 0 and changes no state. -/
def Obligations.LoadAnswers : Prop :=
  ∀ (s : State) (p : List InstrWord), s.hostCmd = .load p → s.mode ≠ .running →
    (Loadable p → step s = .next { s with istore := p, pc := 0, mode := .idle, err := none, loadOk := true,
                                          hostCmds := s.hostCmds.tail }) ∧
    (¬ Loadable p → step s = .next { s with loadOk := false, hostCmds := s.hostCmds.tail })

/-- R213 and D14 exclude LOAD in RUNNING; that the model stops there with a named fault is the model's choice
(assumption log 6). -/
def Obligations.LoadWhileRunningStops : Prop :=
  ∀ (s : State) (p : List InstrWord), s.hostCmd = .load p → s.mode = .running → step s = .fault .loadWhileRunning

/-- R214: START in IDLE starts the run, and in every other mode it has no effect. -/
def Obligations.StartTransaction : Prop :=
  ∀ s : State, s.hostCmd = .start →
    (s.mode = .idle → step s = .next { s with mode := .running, hostCmds := s.hostCmds.tail }) ∧
    (s.mode ≠ .idle → step s = .next { s with hostCmds := s.hostCmds.tail })

/-- R218: two accepted LOADs of one program leave what one leaves. -/
def Obligations.LoadIdempotent : Prop :=
  ∀ (s : State) (p : List InstrWord) (rest : List HostCmd), s.hostCmds = .load p :: .load p :: rest →
    s.mode ≠ .running → Loadable p →
    ∃ t, step s = .next t ∧ step t = .next { t with hostCmds := rest }

/-- R216: what a launch starts from, with RESET before it (all zero) and without (x and cf as the last run left them). -/
def Obligations.LaunchState : Prop :=
  ∀ (s : State) (p : List InstrWord) (rest : List HostCmd), Loadable p →
    (s.hostCmds = .reset :: .load p :: .start :: rest →
      ∃ t : State, Sys2Proof.core.run 3 s = .next t ∧ (∀ (i : Nat) (h : i < 10), t.x[i] = 0) ∧ t.cf = 0 ∧ t.pc = 0 ∧
        t.mode = .running ∧ t.istore = p) ∧
    (s.hostCmds = .load p :: .start :: rest → s.mode ≠ .running →
      ∃ t : State, Sys2Proof.core.run 2 s = .next t ∧ t.x = s.x ∧ t.cf = s.cf ∧ t.pc = 0 ∧ t.mode = .running ∧
        t.istore = p)

/-- R217: a run of the empty program halts at its first step with the current x[0] as result, which is 0 after RESET. -/
def Obligations.EmptyRunHalts : Prop :=
  (∀ s : State, CoreMoves s → s.istore = [] →
    ∃ t, step s = .next t ∧ t.mode = .halted ∧ t.runResult = some s.x[0]) ∧
  (∀ s : State, s.hostCmds = [.reset, .load [], .start] →
    ∃ t : State, Sys2Proof.core.run 4 s = .next t ∧ t.mode = .halted ∧ t.runResult = some 0)

/-- R210, R31, R32: the codes the output ports carry, and the values of the debug readout; `dbg_n` is N in every state the
machine can be in. -/
def Obligations.OutputPorts : Prop :=
  ∀ s : State,
    ((readPorts s).mode = 0b00#2 ↔ s.mode = .idle) ∧ ((readPorts s).mode = 0b01#2 ↔ s.mode = .running) ∧
    ((readPorts s).mode = 0b10#2 ↔ s.mode = .halted) ∧ ((readPorts s).mode = 0b11#2 ↔ s.mode = .faulted) ∧
    ((readPorts s).err = 0#2 ↔ s.err = none) ∧ ((readPorts s).err = 1#2 ↔ s.err = some .invalidRegister) ∧
    ((readPorts s).err = 2#2 ↔ s.err = some .divisionByZero) ∧
    ((readPorts s).err = 3#2 ↔ s.err = some .invalidProgramCounter) ∧
    ((readPorts s).loadOk = 1#1 ↔ s.loadOk = true) ∧
    (readPorts s).dbgX = s.x ∧ (readPorts s).dbgPc = s.pc ∧ (readPorts s).dbgCf = s.cf ∧
    (s.mode = .halted → s.runResult = some (readPorts s).result) ∧
    (Inv s → (readPorts s).dbgN.toNat = s.istore.length)

/-! ### The step (40_cycle) -/

/-- R100: a step runs the decoded instruction, on the state whose pc is pre-advanced. -/
def Obligations.StepRunsInstruction : Prop :=
  ∀ (s : State) (i : Instr), CoreMoves s → Fetches s i →
    step s = exec i { s with pc := s.pc + 1, hostCmds := s.hostCmds.tail }

/-- R100, R102: a fetch at pc >= N ends the run successfully, and nothing else changes. -/
def Obligations.StepEndsRun : Prop :=
  ∀ s : State, CoreMoves s → s.istore.length ≤ s.pc.toNat →
    step s = .next { s with mode := .halted, hostCmds := s.hostCmds.tail }

/-- R80: a model that meets an invalid word at fetch refuses the step. -/
def Obligations.StepRefusesInvalidWord : Prop :=
  ∀ (s : State) (h : s.pc.toNat < s.istore.length) (why : Invalid), CoreMoves s →
    decode s.istore[s.pc.toNat] = .error why → step s = .refused (.invalidWord why)

/-- No step of the core is enabled outside RUNNING (R100); that the model then answers the same state is the model's
choice (assumption log 4). -/
def Obligations.CoreRests : Prop :=
  ∀ s : State, s.hostCmd = .none → s.mode ≠ .running → step s = .next { s with hostCmds := s.hostCmds.tail }

/-- R103, R161: a jump to its own index, with no host command pending, is an endless run: the step leaves the state as it
is. -/
def Obligations.SelfJumpLoops : Prop :=
  ∀ s : State, s.mode = .running → s.hostCmds = [] → Fetches s (.jmp s.pc) → step s = .next s

/-- R31, R187: HALTED and FAULTED are left by no move but RESET and an accepted LOAD, and until then x, pc, cf, the store
and err stay as the end of the run left them. -/
def Obligations.EndedRunIsAbsorbing : Prop :=
  ∀ s t : State, (s.mode = .halted ∨ s.mode = .faulted) → step s = .next t →
    (t.mode = s.mode ∧ t.x = s.x ∧ t.pc = s.pc ∧ t.cf = s.cf ∧ t.istore = s.istore ∧ t.err = s.err) ∨
    (t.mode = .idle ∧ (s.hostCmd = .reset ∨ ∃ p, s.hostCmd = .load p ∧ Loadable p))

/-- R30, R53: the store changes by no move but RESET and an accepted LOAD outside a run. -/
def Obligations.StoreReplacedOnlyByHost : Prop :=
  ∀ s t : State, step s = .next t → t.istore ≠ s.istore →
    s.hostCmd = .reset ∨ ∃ p, s.hostCmd = .load p ∧ s.mode ≠ .running ∧ Loadable p ∧ t.istore = p

/-- R23: a register changes only by RESET or by a fetched MOV, ADD, SUB, MUL or DIV whose RD names it. -/
def Obligations.RegisterWriters : Prop :=
  ∀ (s t : State) (r : Nat) (h : r < 10), step s = .next t → t.x[r] ≠ s.x[r] →
    s.hostCmd = .reset ∨ (CoreMoves s ∧ ∃ i, Fetches s i ∧ WritesReg r i)

/-- R29, R154: the flag changes only by RESET or by a fetched CMP. -/
def Obligations.FlagWriters : Prop :=
  ∀ s t : State, step s = .next t → t.cf ≠ s.cf →
    s.hostCmd = .reset ∨ (CoreMoves s ∧ ∃ rd src, Fetches s (.cmp rd src))

/-- R32: err changes only by RESET and LOAD, which leave it none, and by a step of the core that ends FAULTED with an error
kind in it. That RESET and an accepted LOAD do clear it says ResetAndLoadValues, and that a fault entry does write it
FaultIsPrecise and ErrorCauses. -/
def Obligations.ErrWriters : Prop :=
  ∀ s t : State, step s = .next t → t.err ≠ s.err →
    (t.err = none ∧ (s.hostCmd = .reset ∨ ∃ p, s.hostCmd = .load p)) ∨
    (CoreMoves s ∧ t.mode = .faulted ∧ t.err ≠ none)

/-- R107: the pc at the end of a successful step is the target of a taken branch, and otherwise the index fetched from
plus 1. -/
def Obligations.NextPc : Prop :=
  ∀ (s t : State) (i : Instr), CoreMoves s → Fetches s i → step s = .next t → t.mode ≠ .faulted →
    (∀ a, Taken s a i → a.toNat < s.istore.length ∧ t.pc = a) ∧ ((∀ a, ¬ Taken s a i) → t.pc = s.pc + 1)

/-- R26: the pre-advance never wraps around, in any state that keeps the invariant. -/
def Obligations.PreAdvanceNoWrap : Prop :=
  ∀ (s : State) (i : Instr), Inv s → Fetches s i → (s.pc + 1).toNat = s.pc.toNat + 1

/-- R108, R185, R186: a failing instruction leaves x, cf and the store as before it, pc one past its own index, mode
FAULTED and an error kind in err. -/
def Obligations.FaultIsPrecise : Prop :=
  ∀ (s t : State) (i : Instr), CoreMoves s → Fetches s i → step s = .next t → t.mode = .faulted →
    t.x = s.x ∧ t.cf = s.cf ∧ t.istore = s.istore ∧ t.pc = s.pc + 1 ∧ t.err ≠ none

/-- R181, R182, R183: a step of the core raises each error kind exactly for its cause. -/
def Obligations.ErrorCauses : Prop :=
  ∀ s t : State, CoreMoves s → step s = .next t →
    (t.mode = .faulted ∧ t.err = some .invalidRegister ↔
      ∃ i rd src, Fetches s i ∧ RegisterOperand rd src i ∧ (10 ≤ rd ∨ OperandInvalid src)) ∧
    (t.mode = .faulted ∧ t.err = some .divisionByZero ↔
      ∃ rd src, Fetches s (.div rd src) ∧ rd < 10 ∧ OperandIs s src 0) ∧
    (t.mode = .faulted ∧ t.err = some .invalidProgramCounter ↔
      ∃ i a, Fetches s i ∧ Taken s a i ∧ s.istore.length ≤ a.toNat)

/-! ### Invariants (40_cycle R109) -/

/-- R109: every move keeps the invariant. -/
def Obligations.StepKeepsInv : Prop :=
  ∀ s t : State, Inv s → step s = .next t → Inv t

/-- The state after RESET meets the invariant. -/
def Obligations.ResetMeetsInv : Prop := Inv State.reset

/-- While the host keeps its duty (no LOAD in RUNNING), every move answers a next state: no fault, no refusal. In RUNNING
that is R232. In IDLE, HALTED and FAULTED with the host silent no step is enabled (R100, R187), and that a move is answered
there is the model's choice (assumption log 4, DESIGN CHOICE). -/
def Obligations.AlwaysAMove : Prop :=
  ∀ s : State, Inv s → (∀ p, s.hostCmd = .load p → s.mode ≠ .running) → ∃ t, step s = .next t

/-- R109, R232: with the host silent, any number of moves are answered, keep the invariant and never change the store.
R232 promises a step in RUNNING only; that moves are answered in IDLE, HALTED and FAULTED, and so after a run has ended, is
the model's choice (assumption log 4, DESIGN CHOICE). -/
def Obligations.RunKeepsStore : Prop :=
  ∀ (k : Nat) (s : State), Inv s → s.hostCmds = [] →
    ∃ t : State, Sys2Proof.core.run k s = .next t ∧ Inv t ∧ t.istore = s.istore ∧ t.hostCmds = []

/-- R106, R189: every instruction is legal in every state: its handler ends in Continue, Halt or Fail, each of which is a
next state. -/
def Obligations.EveryInstructionAnswers : Prop := ∀ (i : Instr) (s : State), ∃ t, exec i s = .next t

/-! ### What an instruction cannot see -/

/-- R28, R153: with a flag of the same sign an instruction does the same, but that an instruction other than CMP leaves the
flag it was given. In 2 bits two different flags have the same sign only when one of them is 0b10, which R28 says never
occurs; that this pattern reads as negative, as -1 does, is the model's reading (assumption log 1, DEDUCED). -/
def Obligations.OnlySignOfFlagRead : Prop :=
  ∀ (i : Instr) (s t : State) (c : Flag), c.toInt.sign = s.cf.toInt.sign → exec i s = .next t →
    ∃ t', exec i { s with cf := c } = .next t' ∧ { t' with cf := t.cf } = t ∧
      ((∀ rd src, i ≠ .cmp rd src) → t'.cf = c) ∧ ((∃ rd src, i = .cmp rd src) → t.mode ≠ .faulted → t'.cf = t.cf)

/-- R34: what an instruction does to x, pc, cf and the store does not depend on mode, err or a host port. The signal it
returns is the subject of SignalIgnoresStatus. -/
def Obligations.StatusNotRead : Prop :=
  ∀ (i : Instr) (s t : State) (m : Mode) (e : Option ErrorKind) (l : Bool) (q : List HostCmd),
    exec i s = .next t →
    ∃ t', exec i { s with mode := m, err := e, loadOk := l, hostCmds := q } = .next t' ∧
      t'.x = t.x ∧ t'.pc = t.pc ∧ t'.cf = t.cf ∧ t'.istore = t.istore

/-- R34, R106: the signal an instruction returns does not depend on mode, err or a host port. Of the same instruction in two
states that differ only in these, either both Continue and each keeps the mode and err it was given, or it is HALT and both
are HALTED with the err they were given, or both are FAULTED with the same error kind; the host ports stay as given. -/
def Obligations.SignalIgnoresStatus : Prop :=
  ∀ (i : Instr) (s t : State) (m : Mode) (e : Option ErrorKind) (l : Bool) (q : List HostCmd),
    exec i s = .next t →
    ∃ t', exec i { s with mode := m, err := e, loadOk := l, hostCmds := q } = .next t' ∧
      ((i ≠ .halt ∧ t.mode = s.mode ∧ t.err = s.err ∧ t'.mode = m ∧ t'.err = e) ∨
       (i = .halt ∧ t.mode = .halted ∧ t.err = s.err ∧ t'.mode = .halted ∧ t'.err = e) ∨
       (i ≠ .halt ∧ ∃ k : ErrorKind, t.mode = .faulted ∧ t.err = some k ∧ t'.mode = .faulted ∧ t'.err = some k)) ∧
      t.loadOk = s.loadOk ∧ t.hostCmds = s.hostCmds ∧ t'.loadOk = l ∧ t'.hostCmds = q

/-! ### The instructions (41_move to 44_control) -/

/-- R104: the operand resolver. -/
def Obligations.OperandResolver : Prop :=
  ∀ s : State, (∀ (i : Nat) (h : i < 10), val (.reg i) s = .ok s.x[i]) ∧
    (∀ i : Nat, 10 ≤ i → val (.reg i) s = .error .invalidRegister) ∧ (∀ v : Word, val (.imm v) s = .ok v)

/-- R120: MOV. -/
def Obligations.MovEffect : Prop :=
  ∀ (rd : Nat) (src : Operand) (s : State),
    (∀ (h : rd < 10) (b : Word), OperandIs s src b → exec (.mov rd src) s = .next { s with x := s.x.set rd b }) ∧
    (10 ≤ rd ∨ OperandInvalid src →
      exec (.mov rd src) s = .next { s with mode := .faulted, err := some .invalidRegister }) ∧
    FormatRO 0x01 (encode (.mov rd src))

/-- R130: ADD; the sum is the 64-bit value congruent to the exact sum. -/
def Obligations.AddEffect : Prop :=
  ∀ (rd : Nat) (src : Operand) (s : State),
    (∀ (h : rd < 10) (b : Word), OperandIs s src b →
      ∃ v : Word, v.toInt = Int.bmod (s.x[rd].toInt + b.toInt) (2 ^ 64) ∧
        exec (.add rd src) s = .next { s with x := s.x.set rd v }) ∧
    (10 ≤ rd ∨ OperandInvalid src →
      exec (.add rd src) s = .next { s with mode := .faulted, err := some .invalidRegister }) ∧
    FormatRO 0x02 (encode (.add rd src))

/-- R131: SUB; the difference is the 64-bit value congruent to the exact difference. -/
def Obligations.SubEffect : Prop :=
  ∀ (rd : Nat) (src : Operand) (s : State),
    (∀ (h : rd < 10) (b : Word), OperandIs s src b →
      ∃ v : Word, v.toInt = Int.bmod (s.x[rd].toInt - b.toInt) (2 ^ 64) ∧
        exec (.sub rd src) s = .next { s with x := s.x.set rd v }) ∧
    (10 ≤ rd ∨ OperandInvalid src →
      exec (.sub rd src) s = .next { s with mode := .faulted, err := some .invalidRegister }) ∧
    FormatRO 0x03 (encode (.sub rd src))

/-- R132: MUL; the low 64 bits of the exact product. -/
def Obligations.MulEffect : Prop :=
  ∀ (rd : Nat) (src : Operand) (s : State),
    (∀ (h : rd < 10) (b : Word), OperandIs s src b →
      ∃ v : Word, v.toInt = Int.bmod (s.x[rd].toInt * b.toInt) (2 ^ 64) ∧
        exec (.mul rd src) s = .next { s with x := s.x.set rd v }) ∧
    (10 ≤ rd ∨ OperandInvalid src →
      exec (.mul rd src) s = .next { s with mode := .faulted, err := some .invalidRegister }) ∧
    FormatRO 0x04 (encode (.mul rd src))

/-- R133: DIV; a zero divisor fails after both indices are checked, INT64_MIN / -1 gives INT64_MIN, and every other
quotient is exact, rounded toward zero. -/
def Obligations.DivEffect : Prop :=
  ∀ (rd : Nat) (src : Operand) (s : State),
    (∀ (h : rd < 10) (b : Word), OperandIs s src b → b ≠ 0 →
      ∃ v : Word, exec (.div rd src) s = .next { s with x := s.x.set rd v } ∧
        if s.x[rd] = int64Min ∧ b = -1 then v = int64Min else v.toInt = Int.tdiv s.x[rd].toInt b.toInt) ∧
    (rd < 10 → OperandIs s src 0 →
      exec (.div rd src) s = .next { s with mode := .faulted, err := some .divisionByZero }) ∧
    (10 ≤ rd ∨ OperandInvalid src →
      exec (.div rd src) s = .next { s with mode := .faulted, err := some .invalidRegister }) ∧
    FormatRO 0x05 (encode (.div rd src))

/-- R135: the quotient is rounded toward zero: the rest it leaves is smaller than the divisor and has the dividend's sign
or is 0. -/
def Obligations.DivRoundsTowardZero : Prop :=
  ∀ (rd : Nat) (h : rd < 10) (src : Operand) (s : State) (b : Word), OperandIs s src b → b ≠ 0 →
    ¬ (s.x[rd] = int64Min ∧ b = -1) →
    ∃ q : Word, exec (.div rd src) s = .next { s with x := s.x.set rd q } ∧
      |s.x[rd].toInt - q.toInt * b.toInt| < |b.toInt| ∧ 0 ≤ (s.x[rd].toInt - q.toInt * b.toInt) * s.x[rd].toInt

/-- R134: ADD, SUB and MUL leave the bit patterns that unsigned arithmetic modulo 2^64 gives. -/
def Obligations.ModularArithmetic : Prop :=
  ∀ (rd : Nat) (h : rd < 10) (src : Operand) (s : State) (b : Word), OperandIs s src b →
    exec (.add rd src) s = .next { s with x := s.x.set rd (s.x[rd] + b) } ∧
    exec (.sub rd src) s = .next { s with x := s.x.set rd (s.x[rd] - b) } ∧
    exec (.mul rd src) s = .next { s with x := s.x.set rd (s.x[rd] * b) }

/-- R136: the laws of adding and subtracting 0 and of multiplying by 1 and by 0. -/
def Obligations.ArithmeticLaws : Prop :=
  ∀ (r : Nat) (h : r < 10) (s : State),
    exec (.add r (.imm 0)) s = .next s ∧ exec (.sub r (.imm 0)) s = .next s ∧ exec (.mul r (.imm 1)) s = .next s ∧
    exec (.mul r (.imm 0)) s = .next { s with x := s.x.set r 0 }

/-- R150, R151, R152: CMP stores the sign of the exact difference, and writes nothing else. -/
def Obligations.CmpEffect : Prop :=
  ∀ (rd : Nat) (src : Operand) (s : State),
    (∀ (h : rd < 10) (b : Word), OperandIs s src b →
      ∃ f : Flag, f.toInt = (s.x[rd].toInt - b.toInt).sign ∧ exec (.cmp rd src) s = .next { s with cf := f }) ∧
    (10 ≤ rd ∨ OperandInvalid src →
      exec (.cmp rd src) s = .next { s with mode := .faulted, err := some .invalidRegister }) ∧
    FormatRO 0x06 (encode (.cmp rd src))

/-- R153, R160 to R165: a taken branch in range sets pc to its target and out of range fails; a branch that is not taken
changes nothing, whatever its target. -/
def Obligations.BranchEffect : Prop :=
  ∀ (addr : Word) (s : State),
    (∀ i : Instr, BranchTo addr i →
      (Taken s addr i → addr.toNat < s.istore.length → exec i s = .next { s with pc := addr }) ∧
      (Taken s addr i → s.istore.length ≤ addr.toNat →
        exec i s = .next { s with mode := .faulted, err := some .invalidProgramCounter }) ∧
      (¬ Taken s addr i → exec i s = .next s)) ∧
    FormatB 0x07 addr (encode (.jmp addr)) ∧ FormatB 0x08 addr (encode (.je addr)) ∧
    FormatB 0x09 addr (encode (.jne addr)) ∧ FormatB 0x0A addr (encode (.jg addr)) ∧
    FormatB 0x0B addr (encode (.jl addr))

/-- R166: HALT ends the run with pc one past its own index, and changes nothing else; its word is 0x0C. -/
def Obligations.HaltEffect : Prop :=
  (∀ s : State, exec .halt s = .next { s with mode := .halted }) ∧
  (∀ s : State, CoreMoves s → Fetches s .halt →
    ∃ t, step s = .next t ∧ t.mode = .halted ∧ t.pc = s.pc + 1 ∧ t.x = s.x ∧ t.cf = s.cf ∧ t.istore = s.istore ∧
      t.err = s.err) ∧
  encode .halt = 0x0C#128

/-! ### Frames -/

/-- The frame of MOV, ADD, SUB, MUL and DIV (R23, R29, R53, R186): whatever the outcome, only x[RD] and, on an error, mode
and err can change. -/
def Obligations.RegisterWritingFrame : Prop :=
  ∀ (rd : Nat) (i : Instr) (s t : State), WritesReg rd i → exec i s = .next t →
    (∀ (r : Nat) (h : r < 10), r ≠ rd → t.x[r] = s.x[r]) ∧ t.pc = s.pc ∧ t.cf = s.cf ∧ t.istore = s.istore ∧
    t.loadOk = s.loadOk ∧ t.hostCmds = s.hostCmds ∧
    ((t.mode = s.mode ∧ t.err = s.err) ∨ (t.mode = .faulted ∧ t.err ≠ none ∧ t.x = s.x))

/-- The frame of CMP (R23, R53, R150, R186): whatever the outcome, only cf or, on an error, mode and err can change. -/
def Obligations.CmpFrame : Prop :=
  ∀ (rd : Nat) (src : Operand) (s t : State), exec (.cmp rd src) s = .next t →
    t.x = s.x ∧ t.pc = s.pc ∧ t.istore = s.istore ∧ t.loadOk = s.loadOk ∧ t.hostCmds = s.hostCmds ∧
    ((t.mode = s.mode ∧ t.err = s.err) ∨ (t.mode = .faulted ∧ t.err = some .invalidRegister ∧ t.cf = s.cf))

/-- The frame of the branches (R23, R29, R53, R160, R186): only pc or, on an error, mode and err can change. -/
def Obligations.BranchFrame : Prop :=
  ∀ (addr : Word) (i : Instr) (s t : State), BranchTo addr i → exec i s = .next t →
    t.x = s.x ∧ t.cf = s.cf ∧ t.istore = s.istore ∧ t.loadOk = s.loadOk ∧ t.hostCmds = s.hostCmds ∧
    ((t.mode = s.mode ∧ t.err = s.err) ∨
      (t.mode = .faulted ∧ t.err = some .invalidProgramCounter ∧ t.pc = s.pc))

/-- The frame of HALT (R23, R29, R53, R166): only mode can change. -/
def Obligations.HaltFrame : Prop :=
  ∀ s t : State, exec .halt s = .next t →
    t.x = s.x ∧ t.pc = s.pc ∧ t.cf = s.cf ∧ t.istore = s.istore ∧ t.err = s.err ∧ t.loadOk = s.loadOk ∧
    t.hostCmds = s.hostCmds
end

