-- ==== Sys2Proof/Laws/Encoding.lean ====
section
/-! SUPPORT. The fields of a packed word, the word a set of fields packs to, and the bytes of a word (30_encoding R71 to
R74, R82; 20_memory R55). -/

namespace Sys2Proof

/-! ### The fields of a word of format RO -/

section PackRO
variable (opc : BitVec 8) (k : BitVec 1) (rd rs : BitVec 8) (p : Word)

theorem getLsbD_packRO (i : Nat) : (packRO opc k rd rs p).getLsbD i =
    if i < 8 then opc.getLsbD i else if i < 9 then k.getLsbD (i - 8) else if i < 16 then false
    else if i < 24 then rd.getLsbD (i - 16) else if i < 32 then rs.getLsbD (i - 24)
    else if i < 64 then false else p.getLsbD (i - 64) := by
  simp only [packRO, BitVec.getLsbD_cast, BitVec.getLsbD_append, BitVec.getLsbD_zero]
  split_ifs <;> first | rfl | (exfalso; omega)

@[simp] theorem fieldOpc_packRO : fieldOpc (packRO opc k rd rs p) = opc := by
  apply BitVec.eq_of_getLsbD_eq
  intro i hi
  simp [fieldOpc, getLsbD_packRO, hi]

@[simp] theorem fieldK_packRO : fieldK (packRO opc k rd rs p) = k := by
  apply BitVec.eq_of_getLsbD_eq
  intro i hi
  simp only [fieldK, BitVec.getLsbD_extractLsb', getLsbD_packRO]
  simp [show i = 0 by omega]

@[simp] theorem fieldRes0_packRO : fieldRes0 (packRO opc k rd rs p) = 0 := by
  apply BitVec.eq_of_getLsbD_eq
  intro i hi
  simp only [fieldRes0, BitVec.getLsbD_extractLsb', getLsbD_packRO]
  simp [show ¬ 9 + i < 8 by omega, show 9 + i < 16 by omega]

@[simp] theorem fieldRd_packRO : fieldRd (packRO opc k rd rs p) = rd := by
  apply BitVec.eq_of_getLsbD_eq
  intro i hi
  simp only [fieldRd, BitVec.getLsbD_extractLsb', getLsbD_packRO]
  simp [show ¬ 16 + i < 8 by omega, show ¬ 16 + i < 9 by omega, show 16 + i < 24 by omega, hi]

@[simp] theorem fieldRs_packRO : fieldRs (packRO opc k rd rs p) = rs := by
  apply BitVec.eq_of_getLsbD_eq
  intro i hi
  simp only [fieldRs, BitVec.getLsbD_extractLsb', getLsbD_packRO]
  simp [show ¬ 24 + i < 8 by omega, show ¬ 24 + i < 9 by omega, show ¬ 24 + i < 16 by omega,
    show 24 + i < 32 by omega, hi]

@[simp] theorem fieldRes1_packRO : fieldRes1 (packRO opc k rd rs p) = 0 := by
  apply BitVec.eq_of_getLsbD_eq
  intro i hi
  simp only [fieldRes1, BitVec.getLsbD_extractLsb', getLsbD_packRO]
  simp [show ¬ 32 + i < 8 by omega, show ¬ 32 + i < 9 by omega, show ¬ 32 + i < 16 by omega,
    show ¬ 32 + i < 24 by omega, show 32 + i < 64 by omega]

@[simp] theorem fieldP_packRO : fieldP (packRO opc k rd rs p) = p := by
  apply BitVec.eq_of_getLsbD_eq
  intro i hi
  simp only [fieldP, BitVec.getLsbD_extractLsb', getLsbD_packRO]
  simp [show ¬ 64 + i < 8 by omega, show ¬ 64 + i < 9 by omega, show ¬ 64 + i < 16 by omega,
    show ¬ 64 + i < 24 by omega, show ¬ 64 + i < 32 by omega, hi]

end PackRO

/-! ### The fields of a word of format B or N -/

theorem getLsbD_packB (opc : BitVec 8) (a : Word) (i : Nat) : (packB opc a).getLsbD i =
    if i < 8 then opc.getLsbD i else if i < 64 then false else a.getLsbD (i - 64) := by
  simp only [packB, BitVec.getLsbD_cast, BitVec.getLsbD_append, BitVec.getLsbD_zero]
  split_ifs <;> first | rfl | (exfalso; omega)

@[simp] theorem fieldOpc_packB (opc : BitVec 8) (a : Word) : fieldOpc (packB opc a) = opc := by
  apply BitVec.eq_of_getLsbD_eq
  intro i hi
  simp [fieldOpc, getLsbD_packB, hi]

@[simp] theorem fieldLow56_packB (opc : BitVec 8) (a : Word) : fieldLow56 (packB opc a) = 0 := by
  apply BitVec.eq_of_getLsbD_eq
  intro i hi
  simp only [fieldLow56, BitVec.getLsbD_extractLsb', getLsbD_packB]
  simp [show 8 + i < 64 by omega]

@[simp] theorem fieldP_packB (opc : BitVec 8) (a : Word) : fieldP (packB opc a) = a := by
  apply BitVec.eq_of_getLsbD_eq
  intro i hi
  simp only [fieldP, BitVec.getLsbD_extractLsb', getLsbD_packB]
  simp [show ¬ 64 + i < 8 by omega, hi]

theorem getLsbD_packN (opc : BitVec 8) (i : Nat) : (packN opc).getLsbD i =
    if i < 8 then opc.getLsbD i else false := by
  simp only [packN, BitVec.getLsbD_cast, BitVec.getLsbD_append, BitVec.getLsbD_zero]

@[simp] theorem fieldOpc_packN (opc : BitVec 8) : fieldOpc (packN opc) = opc := by
  apply BitVec.eq_of_getLsbD_eq
  intro i hi
  simp [fieldOpc, getLsbD_packN, hi]

@[simp] theorem fieldHigh120_packN (opc : BitVec 8) : fieldHigh120 (packN opc) = 0 := by
  apply BitVec.eq_of_getLsbD_eq
  intro i hi
  simp [fieldHigh120, getLsbD_packN]

/-! ### The word its fields pack to -/

theorem packRO_fields (w : InstrWord) (h0 : fieldRes0 w = 0) (h1 : fieldRes1 w = 0) :
    packRO (fieldOpc w) (fieldK w) (fieldRd w) (fieldRs w) (fieldP w) = w := by
  apply BitVec.eq_of_getLsbD_eq
  intro i hi
  have r0 := congrArg (BitVec.getLsbD · (i - 9)) h0
  have r1 := congrArg (BitVec.getLsbD · (i - 32)) h1
  simp only [fieldRes0, fieldRes1, BitVec.getLsbD_extractLsb', BitVec.getLsbD_zero, BitVec.ofNat_eq_ofNat] at r0 r1
  rw [getLsbD_packRO]
  simp only [fieldOpc, fieldK, fieldRd, fieldRs, fieldP, BitVec.getLsbD_extractLsb']
  split_ifs with a b c d e f
  · simp [a]
  · simp [show i = 8 by omega]
  · rw [← r0]; simp [show 9 + (i - 9) = i by omega, show i - 9 < 7 by omega]
  · simp [show 16 + (i - 16) = i by omega, show i - 16 < 8 by omega]
  · simp [show 24 + (i - 24) = i by omega, show i - 24 < 8 by omega]
  · rw [← r1]; simp [show 32 + (i - 32) = i by omega, show i - 32 < 32 by omega]
  · simp [show 64 + (i - 64) = i by omega, show i - 64 < 64 by omega]

theorem packB_fields (w : InstrWord) (h : fieldLow56 w = 0) : packB (fieldOpc w) (fieldP w) = w := by
  apply BitVec.eq_of_getLsbD_eq
  intro i hi
  have r := congrArg (BitVec.getLsbD · (i - 8)) h
  simp only [fieldLow56, BitVec.getLsbD_extractLsb', BitVec.getLsbD_zero, BitVec.ofNat_eq_ofNat] at r
  rw [getLsbD_packB]
  simp only [fieldOpc, fieldP, BitVec.getLsbD_extractLsb']
  split_ifs with a b
  · simp [a]
  · rw [← r]; simp [show 8 + (i - 8) = i by omega, show i - 8 < 56 by omega]
  · simp [show 64 + (i - 64) = i by omega, show i - 64 < 64 by omega]

theorem packN_fields (w : InstrWord) (h : fieldHigh120 w = 0) : packN (fieldOpc w) = w := by
  apply BitVec.eq_of_getLsbD_eq
  intro i hi
  have r := congrArg (BitVec.getLsbD · (i - 8)) h
  simp only [fieldHigh120, BitVec.getLsbD_extractLsb', BitVec.getLsbD_zero, BitVec.ofNat_eq_ofNat] at r
  rw [getLsbD_packN]
  simp only [fieldOpc, BitVec.getLsbD_extractLsb']
  split_ifs with a
  · simp [a]
  · rw [← r]; simp [show 8 + (i - 8) = i by omega, show i - 8 < 120 by omega]

/-! ### Bytes -/

@[simp] theorem wordBytes_length (w : InstrWord) : (wordBytes w).length = 16 := by simp [wordBytes]

/-- Bit i of the word of a byte string is bit i mod 8 of its byte i / 8. -/
theorem getLsbD_wordOfBytes (bs : List Byte) (i : Nat) (hi : i < 128) :
    (wordOfBytes bs).getLsbD i = (bs[i / 8]?.getD 0).getLsbD (i % 8) := by
  induction bs generalizing i with
  | nil => simp [wordOfBytes]
  | cons b bs ih =>
    simp only [wordOfBytes, BitVec.getLsbD_or, BitVec.getLsbD_shiftLeft, BitVec.getLsbD_setWidth]
    by_cases h : i < 8
    · simp [h, hi, Nat.div_eq_of_lt h, Nat.mod_eq_of_lt h]
    · obtain ⟨j, rfl⟩ : ∃ j, i = j + 8 := ⟨i - 8, by omega⟩
      simp [hi, ih j (by omega), Nat.add_div_right]

theorem wordOfBytes_wordBytes (w : InstrWord) : wordOfBytes (wordBytes w) = w := by
  apply BitVec.eq_of_getLsbD_eq
  intro i hi
  rw [getLsbD_wordOfBytes _ _ hi]
  simp [wordBytes, show i / 8 < 16 by omega, Nat.mod_lt, Nat.div_add_mod]

end Sys2Proof
end

