-- ==== Sys2Proof/Laws/State.lean ====
section
/-! SUPPORT. One lemma per field per update of the state, so that no later proof unfolds a record update. -/

namespace Sys2Proof.Machine

variable (s : State)

/-! ### `State.writeReg` -/

@[simp] theorem State.writeReg_x (i : Nat) (v : Word) : (s.writeReg i v).x = s.x.setIfInBounds i v := rfl
@[simp] theorem State.writeReg_pc (i : Nat) (v : Word) : (s.writeReg i v).pc = s.pc := rfl
@[simp] theorem State.writeReg_cf (i : Nat) (v : Word) : (s.writeReg i v).cf = s.cf := rfl
@[simp] theorem State.writeReg_istore (i : Nat) (v : Word) : (s.writeReg i v).istore = s.istore := rfl
@[simp] theorem State.writeReg_mode (i : Nat) (v : Word) : (s.writeReg i v).mode = s.mode := rfl
@[simp] theorem State.writeReg_err (i : Nat) (v : Word) : (s.writeReg i v).err = s.err := rfl
@[simp] theorem State.writeReg_loadOk (i : Nat) (v : Word) : (s.writeReg i v).loadOk = s.loadOk := rfl
@[simp] theorem State.writeReg_hostCmds (i : Nat) (v : Word) : (s.writeReg i v).hostCmds = s.hostCmds := rfl

/-! ### `State.setPc` -/

@[simp] theorem State.setPc_x (t : Word) : (s.setPc t).x = s.x := rfl
@[simp] theorem State.setPc_pc (t : Word) : (s.setPc t).pc = t := rfl
@[simp] theorem State.setPc_cf (t : Word) : (s.setPc t).cf = s.cf := rfl
@[simp] theorem State.setPc_istore (t : Word) : (s.setPc t).istore = s.istore := rfl
@[simp] theorem State.setPc_mode (t : Word) : (s.setPc t).mode = s.mode := rfl
@[simp] theorem State.setPc_err (t : Word) : (s.setPc t).err = s.err := rfl
@[simp] theorem State.setPc_loadOk (t : Word) : (s.setPc t).loadOk = s.loadOk := rfl
@[simp] theorem State.setPc_hostCmds (t : Word) : (s.setPc t).hostCmds = s.hostCmds := rfl

/-! ### `State.setCf` -/

@[simp] theorem State.setCf_x (f : Flag) : (s.setCf f).x = s.x := rfl
@[simp] theorem State.setCf_pc (f : Flag) : (s.setCf f).pc = s.pc := rfl
@[simp] theorem State.setCf_cf (f : Flag) : (s.setCf f).cf = f := rfl
@[simp] theorem State.setCf_istore (f : Flag) : (s.setCf f).istore = s.istore := rfl
@[simp] theorem State.setCf_mode (f : Flag) : (s.setCf f).mode = s.mode := rfl
@[simp] theorem State.setCf_err (f : Flag) : (s.setCf f).err = s.err := rfl
@[simp] theorem State.setCf_loadOk (f : Flag) : (s.setCf f).loadOk = s.loadOk := rfl
@[simp] theorem State.setCf_hostCmds (f : Flag) : (s.setCf f).hostCmds = s.hostCmds := rfl

/-! ### `State.preAdvance` -/

@[simp] theorem State.preAdvance_x : (s.preAdvance).x = s.x := rfl
@[simp] theorem State.preAdvance_pc : (s.preAdvance).pc = s.pc + 1 := rfl
@[simp] theorem State.preAdvance_cf : (s.preAdvance).cf = s.cf := rfl
@[simp] theorem State.preAdvance_istore : (s.preAdvance).istore = s.istore := rfl
@[simp] theorem State.preAdvance_mode : (s.preAdvance).mode = s.mode := rfl
@[simp] theorem State.preAdvance_err : (s.preAdvance).err = s.err := rfl
@[simp] theorem State.preAdvance_loadOk : (s.preAdvance).loadOk = s.loadOk := rfl
@[simp] theorem State.preAdvance_hostCmds : (s.preAdvance).hostCmds = s.hostCmds := rfl

/-! ### `State.endRun` -/

@[simp] theorem State.endRun_x : (s.endRun).x = s.x := rfl
@[simp] theorem State.endRun_pc : (s.endRun).pc = s.pc := rfl
@[simp] theorem State.endRun_cf : (s.endRun).cf = s.cf := rfl
@[simp] theorem State.endRun_istore : (s.endRun).istore = s.istore := rfl
@[simp] theorem State.endRun_mode : (s.endRun).mode = .halted := rfl
@[simp] theorem State.endRun_err : (s.endRun).err = s.err := rfl
@[simp] theorem State.endRun_loadOk : (s.endRun).loadOk = s.loadOk := rfl
@[simp] theorem State.endRun_hostCmds : (s.endRun).hostCmds = s.hostCmds := rfl

/-! ### `State.raise` -/

@[simp] theorem State.raise_x (e : ErrorKind) : (s.raise e).x = s.x := rfl
@[simp] theorem State.raise_pc (e : ErrorKind) : (s.raise e).pc = s.pc := rfl
@[simp] theorem State.raise_cf (e : ErrorKind) : (s.raise e).cf = s.cf := rfl
@[simp] theorem State.raise_istore (e : ErrorKind) : (s.raise e).istore = s.istore := rfl
@[simp] theorem State.raise_mode (e : ErrorKind) : (s.raise e).mode = .faulted := rfl
@[simp] theorem State.raise_err (e : ErrorKind) : (s.raise e).err = some e := rfl
@[simp] theorem State.raise_loadOk (e : ErrorKind) : (s.raise e).loadOk = s.loadOk := rfl
@[simp] theorem State.raise_hostCmds (e : ErrorKind) : (s.raise e).hostCmds = s.hostCmds := rfl

/-! ### `State.popHost` -/

@[simp] theorem State.popHost_x : (s.popHost).x = s.x := rfl
@[simp] theorem State.popHost_pc : (s.popHost).pc = s.pc := rfl
@[simp] theorem State.popHost_cf : (s.popHost).cf = s.cf := rfl
@[simp] theorem State.popHost_istore : (s.popHost).istore = s.istore := rfl
@[simp] theorem State.popHost_mode : (s.popHost).mode = s.mode := rfl
@[simp] theorem State.popHost_err : (s.popHost).err = s.err := rfl
@[simp] theorem State.popHost_loadOk : (s.popHost).loadOk = s.loadOk := rfl
@[simp] theorem State.popHost_hostCmds : (s.popHost).hostCmds = s.hostCmds.tail := rfl

/-! ### `State.loadProgram` -/

@[simp] theorem State.loadProgram_x (p : List InstrWord) : (s.loadProgram p).x = s.x := rfl
@[simp] theorem State.loadProgram_pc (p : List InstrWord) : (s.loadProgram p).pc = 0 := rfl
@[simp] theorem State.loadProgram_cf (p : List InstrWord) : (s.loadProgram p).cf = s.cf := rfl
@[simp] theorem State.loadProgram_istore (p : List InstrWord) : (s.loadProgram p).istore = p := rfl
@[simp] theorem State.loadProgram_mode (p : List InstrWord) : (s.loadProgram p).mode = .idle := rfl
@[simp] theorem State.loadProgram_err (p : List InstrWord) : (s.loadProgram p).err = none := rfl
@[simp] theorem State.loadProgram_loadOk (p : List InstrWord) : (s.loadProgram p).loadOk = true := rfl
@[simp] theorem State.loadProgram_hostCmds (p : List InstrWord) : (s.loadProgram p).hostCmds = s.hostCmds := rfl

/-! ### `State.rejectLoad` -/

@[simp] theorem State.rejectLoad_x : (s.rejectLoad).x = s.x := rfl
@[simp] theorem State.rejectLoad_pc : (s.rejectLoad).pc = s.pc := rfl
@[simp] theorem State.rejectLoad_cf : (s.rejectLoad).cf = s.cf := rfl
@[simp] theorem State.rejectLoad_istore : (s.rejectLoad).istore = s.istore := rfl
@[simp] theorem State.rejectLoad_mode : (s.rejectLoad).mode = s.mode := rfl
@[simp] theorem State.rejectLoad_err : (s.rejectLoad).err = s.err := rfl
@[simp] theorem State.rejectLoad_loadOk : (s.rejectLoad).loadOk = false := rfl
@[simp] theorem State.rejectLoad_hostCmds : (s.rejectLoad).hostCmds = s.hostCmds := rfl

end Sys2Proof.Machine
end

