-- ==== Sys2Proof/Laws/Ops.lean ====
section
/-! SUPPORT. One lemma per shared operation that says everything it can do, and the inversion of exec that later proofs
cite. -/

namespace Sys2Proof.Machine

/-! ### Registers and operands -/

theorem readReg_lt {i : Nat} (s : State) (h : i < 10) : readReg i s = .ok s.x[i] := by
  simp [readReg, h]

theorem readReg_ge {i : Nat} (s : State) (h : 10 ≤ i) : readReg i s = .error .invalidRegister := by
  simp [readReg, h]

theorem readReg_cases (i : Nat) (s : State) :
    (∃ h : i < 10, readReg i s = .ok s.x[i]) ∨ (10 ≤ i ∧ readReg i s = .error .invalidRegister) :=
  (Nat.lt_or_ge i 10).imp (fun h => ⟨h, readReg_lt s h⟩) (fun h => ⟨h, readReg_ge s h⟩)

theorem val_cases (op : Operand) (s : State) :
    (∃ v, OperandIs s op v ∧ val op s = .ok v) ∨ (OperandInvalid op ∧ val op s = .error .invalidRegister) := by
  cases op with
  | imm v => exact .inl ⟨v, .inl rfl, rfl⟩
  | reg i =>
    obtain ⟨h, e⟩ | ⟨h, e⟩ := readReg_cases i s
    · exact .inl ⟨_, .inr ⟨i, h, rfl, rfl⟩, e⟩
    · exact .inr ⟨⟨i, rfl, h⟩, e⟩

theorem val_of_operandIs {op : Operand} {s : State} {v : Word} (h : OperandIs s op v) : val op s = .ok v := by
  obtain rfl | ⟨i, hi, rfl, rfl⟩ := h
  · rfl
  · exact readReg_lt s hi

theorem val_of_operandInvalid {op : Operand} (s : State) (h : OperandInvalid op) :
    val op s = .error .invalidRegister := by
  obtain ⟨i, rfl, hi⟩ := h
  exact readReg_ge s hi

theorem withOperands_ok {rd : Nat} {src : Operand} {s : State} {b : Word} (effect : Word → Word → Result)
    (h : rd < 10) (hb : OperandIs s src b) : withOperands rd src s effect = effect s.x[rd] b := by
  simp [withOperands, readReg_lt s h, val_of_operandIs hb]

theorem withOperands_invalid {rd : Nat} {src : Operand} (s : State) (effect : Word → Word → Result)
    (h : 10 ≤ rd ∨ OperandInvalid src) : withOperands rd src s effect = .next (s.raise .invalidRegister) := by
  obtain ⟨hr, e⟩ | ⟨-, e⟩ := readReg_cases rd s
  · have hs := h.resolve_left (by omega)
    simp [withOperands, e, val_of_operandInvalid s hs]
  · simp [withOperands, e]

/-- Everything the shared handler shape can do. -/
theorem withOperands_cases (rd : Nat) (src : Operand) (s : State) (effect : Word → Word → Result) :
    (∃ (h : rd < 10) (b : Word), OperandIs s src b ∧ withOperands rd src s effect = effect s.x[rd] b) ∨
    ((10 ≤ rd ∨ OperandInvalid src) ∧ withOperands rd src s effect = .next (s.raise .invalidRegister)) := by
  obtain ⟨hr, -⟩ | ⟨hr, -⟩ := readReg_cases rd s
  · obtain ⟨b, hb, -⟩ | ⟨hb, -⟩ := val_cases src s
    · exact .inl ⟨hr, b, hb, withOperands_ok effect hr hb⟩
    · exact .inr ⟨.inr hb, withOperands_invalid s effect (.inr hb)⟩
  · exact .inr ⟨.inl hr, withOperands_invalid s effect (.inl hr)⟩

/-- Writing a valid register is setting it. -/
theorem writeReg_eq_set {i : Nat} (v : Word) (s : State) (h : i < 10) :
    s.writeReg i v = { s with x := s.x.set i v } := by
  simp only [State.writeReg]
  congr 1
  ext r hr
  simp [Vector.getElem_setIfInBounds, Vector.getElem_set]

theorem writeReg_x_of_ne {i r : Nat} (v : Word) (s : State) (h : r ≠ i) : (s.writeReg i v).x[r]? = s.x[r]? := by
  simp [Vector.getElem?_setIfInBounds_ne h.symm]

/-! ### The ALU and the flag -/

/-- `wrap64` reads back as the value in [INT64_MIN, INT64_MAX] congruent to n modulo 2^64 (00_scope R9). -/
theorem toInt_wrap64 (n : Int) : (wrap64 n).toInt = n.bmod (2 ^ 64) := by simp [wrap64]

theorem wrap64_toInt (v : Word) : wrap64 v.toInt = v := by simp [wrap64]

theorem compareFlag_ne (a b : Word) : compareFlag a b ≠ 0b10#2 := by
  unfold compareFlag
  split_ifs <;> decide

/-! ### Branches -/

/-- Everything the branch action can do. -/
theorem take_cases (addr : Word) (s : State) :
    (addr.toNat < s.istore.length ∧ take addr s = .next (s.setPc addr)) ∨
    (s.istore.length ≤ addr.toNat ∧ take addr s = .next (s.raise .invalidProgramCounter)) := by
  unfold take State.n
  split_ifs with h
  · exact .inl ⟨h, rfl⟩
  · exact .inr ⟨Nat.le_of_not_lt h, rfl⟩

/-- Everything a conditional branch can do. -/
theorem branchIf_cases (p : Bool) (addr : Word) (s : State) :
    (p = false ∧ branchIf p addr s = .next s) ∨ (p = true ∧ branchIf p addr s = take addr s) := by
  cases p
  · exact .inl ⟨rfl, rfl⟩
  · exact .inr ⟨rfl, rfl⟩

/-- A taken branch is the branch action. -/
theorem exec_of_taken {s : State} {addr : Word} {i : Instr} (h : Taken s addr i) : exec i s = take addr s := by
  obtain rfl | ⟨rfl, h⟩ | ⟨rfl, h⟩ | ⟨rfl, h⟩ | ⟨rfl, h⟩ := h
  · rfl
  all_goals simp [exec, execJe, execJne, execJg, execJl, branchIf, flagEq, flagNe, flagGt, flagLt, h]

/-! ### Every instruction -/

/-- The shape of what an instruction does to the state (40_cycle R106). -/
inductive Effect (s : State) (i : Instr) : State → Prop where
  | wrote {rd : Nat} (v : Word) (w : WritesReg rd i) (h : rd < 10) : Effect s i (s.writeReg rd v)
  | compared {rd : Nat} {src : Operand} (a b : Word) (w : i = .cmp rd src) : Effect s i (s.setCf (compareFlag a b))
  | jumped {addr : Word} (w : Taken s addr i) (h : addr.toNat < s.istore.length) : Effect s i (s.setPc addr)
  | fellThrough (w : ∃ a, i = .je a ∨ i = .jne a ∨ i = .jg a ∨ i = .jl a) : Effect s i s
  | halted (w : i = .halt) : Effect s i s.endRun
  | badRegister {rd : Nat} (w : WritesReg rd i ∨ ∃ src, i = .cmp rd src) : Effect s i (s.raise .invalidRegister)
  | dividedByZero {rd : Nat} {src : Operand} (w : i = .div rd src) (z : OperandIs s src 0) :
      Effect s i (s.raise .divisionByZero)
  | badTarget {addr : Word} (w : Taken s addr i) (h : s.istore.length ≤ addr.toNat) :
      Effect s i (s.raise .invalidProgramCounter)

theorem effect_of_take {s t : State} {addr : Word} {i : Instr} (w : Taken s addr i)
    (h : take addr s = .next t) : Effect s i t := by
  obtain ⟨hr, e⟩ | ⟨hr, e⟩ := take_cases addr s <;> (rw [e] at h; cases h)
  · exact .jumped w hr
  · exact .badTarget w hr

theorem effect_of_branchIf {s t : State} {addr : Word} {i : Instr} {p : Bool}
    (u : i = .je addr ∨ i = .jne addr ∨ i = .jg addr ∨ i = .jl addr) (w : p = true → Taken s addr i)
    (h : branchIf p addr s = .next t) : Effect s i t := by
  obtain ⟨-, e⟩ | ⟨hp, e⟩ := branchIf_cases p addr s <;> rw [e] at h
  · cases h
    exact .fellThrough ⟨addr, u⟩
  · exact effect_of_take (w hp) h

/-- Everything an instruction can do, when it answers a next state. -/
theorem exec_effect {i : Instr} {s t : State} (h : exec i s = .next t) : Effect s i t := by
  cases i with
  | mov rd src =>
    have w : WritesReg rd (.mov rd src) := ⟨src, by simp⟩
    simp only [exec, execMov] at h
    obtain ⟨hr, b, -, e⟩ | ⟨-, e⟩ := withOperands_cases rd src s _ <;> (rw [e] at h; cases h)
    exacts [.wrote _ w hr, .badRegister (.inl w)]
  | add rd src =>
    have w : WritesReg rd (.add rd src) := ⟨src, by simp⟩
    simp only [exec, execAdd] at h
    obtain ⟨hr, b, -, e⟩ | ⟨-, e⟩ := withOperands_cases rd src s _ <;> (rw [e] at h; cases h)
    exacts [.wrote _ w hr, .badRegister (.inl w)]
  | sub rd src =>
    have w : WritesReg rd (.sub rd src) := ⟨src, by simp⟩
    simp only [exec, execSub] at h
    obtain ⟨hr, b, -, e⟩ | ⟨-, e⟩ := withOperands_cases rd src s _ <;> (rw [e] at h; cases h)
    exacts [.wrote _ w hr, .badRegister (.inl w)]
  | mul rd src =>
    have w : WritesReg rd (.mul rd src) := ⟨src, by simp⟩
    simp only [exec, execMul] at h
    obtain ⟨hr, b, -, e⟩ | ⟨-, e⟩ := withOperands_cases rd src s _ <;> (rw [e] at h; cases h)
    exacts [.wrote _ w hr, .badRegister (.inl w)]
  | div rd src =>
    have w : WritesReg rd (.div rd src) := ⟨src, by simp⟩
    simp only [exec, execDiv] at h
    obtain ⟨hr, b, hb, e⟩ | ⟨-, e⟩ := withOperands_cases rd src s _ <;> rw [e] at h
    · split at h <;> cases h
      next hz => exact .dividedByZero rfl (hz ▸ hb)
      next => exact .wrote _ w hr
    · cases h
      exact .badRegister (.inl w)
  | cmp rd src =>
    simp only [exec, execCmp] at h
    obtain ⟨hr, b, -, e⟩ | ⟨-, e⟩ := withOperands_cases rd src s _ <;> (rw [e] at h; cases h)
    exacts [.compared _ _ rfl, .badRegister (.inr ⟨src, rfl⟩)]
  | jmp a => exact effect_of_take (.inl rfl) h
  | je a => exact effect_of_branchIf (by simp) (fun p => .inr (.inl ⟨rfl, by simpa [flagEq] using p⟩)) h
  | jne a => exact effect_of_branchIf (by simp) (fun p => .inr (.inr (.inl ⟨rfl, by simpa [flagNe] using p⟩))) h
  | jg a => exact effect_of_branchIf (by simp) (fun p => .inr (.inr (.inr (.inl ⟨rfl, by simpa [flagGt] using p⟩)))) h
  | jl a => exact effect_of_branchIf (by simp) (fun p => .inr (.inr (.inr (.inr ⟨rfl, by simpa [flagLt] using p⟩)))) h
  | halt =>
    cases h
    exact .halted rfl

/-! ### The store and the host -/

theorem fetch_of_fetches {s : State} {i : Instr} (h : Fetches s i) : fetch s = some (.ok i) := by
  obtain ⟨hlt, hd⟩ := h
  simp [fetch, Memory.read, hlt, hd]

theorem fetch_none {s : State} : fetch s = none ↔ s.istore.length ≤ s.pc.toNat := by
  simp [fetch, Memory.read]

/-- Everything LOAD can do. -/
theorem hostLoad_cases (p : List InstrWord) (s : State) :
    (s.mode = .running ∧ hostLoad p s = .fault .loadWhileRunning) ∨
    (s.mode ≠ .running ∧ Memory.wf p = true ∧ hostLoad p s = .next (s.loadProgram p)) ∨
    (s.mode ≠ .running ∧ Memory.wf p = false ∧ hostLoad p s = .next s.rejectLoad) := by
  by_cases hm : s.mode = .running
  · exact .inl ⟨hm, by simp [hostLoad, hm]⟩
  · cases hw : Memory.wf p
    · exact .inr (.inr ⟨hm, rfl, by unfold hostLoad; split <;> simp_all [loadAccepted]⟩)
    · exact .inr (.inl ⟨hm, rfl, by unfold hostLoad; split <;> simp_all [loadAccepted]⟩)

/-- Everything START can do. -/
theorem hostStart_cases (s : State) :
    (s.mode = .idle ∧ hostStart s = { s with mode := .running }) ∨ (s.mode ≠ .idle ∧ hostStart s = s) := by
  cases h : s.mode <;> simp [hostStart, h]

end Sys2Proof.Machine
end

