-- ==== Sys2Proof/Laws/Memory.lean ====
section
/-! SUPPORT. The form of the instruction store holds after reset and is kept by every operation that replaces the store:
an accepted LOAD and RESET (70_reset R212, R213). -/

namespace Sys2Proof.Machine

theorem imemDepth_pos : 1 ≤ Config.imemDepth := Nat.le_add_left 1 _

theorem imemDepth_le : Config.imemDepth ≤ 18446744073709551615 := Config.imemDepthPred.isLt

theorem validWord_iff (w : InstrWord) : validWord w = true ↔ ∃ i, decode w = .ok i := by
  unfold validWord
  split <;> simp_all

/-- The check LOAD makes is the one 70_reset R213 words. -/
theorem memory_wf_iff (p : List InstrWord) : Memory.wf p = true ↔ Loadable p := by
  simp [Memory.wf, Loadable, validWord_iff]

theorem memory_wf_nil : Memory.wf [] = true := by simp [Memory.wf]

theorem reset_store_wf : Memory.wf State.reset.istore = true := memory_wf_nil

theorem hostReset_store_wf (s : State) : Memory.wf (hostReset s).istore = true := memory_wf_nil

theorem hostLoad_store_wf {p : List InstrWord} {s t : State} (hs : Memory.wf s.istore = true)
    (h : hostLoad p s = .next t) : Memory.wf t.istore = true := by
  obtain ⟨-, e⟩ | ⟨-, hw, e⟩ | ⟨-, -, e⟩ := hostLoad_cases p s <;> rw [e] at h <;> cases h
  exacts [hw, hs]

theorem exec_istore {i : Instr} {s t : State} (h : exec i s = .next t) : t.istore = s.istore := by
  cases exec_effect h <;> rfl

/-- A word of a store in its form decodes to an instruction. -/
theorem decode_of_store_wf {m : Memory} (hm : Memory.wf m = true) {k : Nat} (hk : k < m.length) :
    ∃ i, decode m[k] = .ok i := by
  exact ((memory_wf_iff m).1 hm).2 _ (List.getElem_mem hk)

end Sys2Proof.Machine
end

