-- ==== Sys2Proof/Laws/PerInstr.lean ====
section
/-! SUPPORT. Statements made of every instruction, one lemma per constructor. EncodeOpcode: the word of an instruction
holds the instruction's opcode in OPC (30_encoding R78, R82). -/

namespace Sys2Proof.Laws.EncodeOpcode

/-- OPC of the encoded word is the opcode the table of 30_encoding R78 gives the instruction. -/
def Statement (i : Instr) : Prop := fieldOpc (encode i) = opcode i

theorem ro (opc : BitVec 8) (rd : Nat) (src : Operand) : fieldOpc (encodeRO opc rd src) = opc := by
  cases src <;> simp [encodeRO]

theorem mov (rd : Nat) (src : Operand) : Statement (.mov rd src) := ro _ rd src
theorem add (rd : Nat) (src : Operand) : Statement (.add rd src) := ro _ rd src
theorem sub (rd : Nat) (src : Operand) : Statement (.sub rd src) := ro _ rd src
theorem mul (rd : Nat) (src : Operand) : Statement (.mul rd src) := ro _ rd src
theorem div (rd : Nat) (src : Operand) : Statement (.div rd src) := ro _ rd src
theorem cmp (rd : Nat) (src : Operand) : Statement (.cmp rd src) := ro _ rd src
theorem jmp (a : Word) : Statement (.jmp a) := fieldOpc_packB _ a
theorem je (a : Word) : Statement (.je a) := fieldOpc_packB _ a
theorem jne (a : Word) : Statement (.jne a) := fieldOpc_packB _ a
theorem jg (a : Word) : Statement (.jg a) := fieldOpc_packB _ a
theorem jl (a : Word) : Statement (.jl a) := fieldOpc_packB _ a
theorem halt : Statement .halt := fieldOpc_packN _

end Sys2Proof.Laws.EncodeOpcode
end

