-- ==== Sys2Proof/Laws/Step.lean ====
section
/-! SUPPORT. The inversion of a move: everything `coreStep` and `step` can do when they answer a next state, and how a run
of the host's interface goes on by one step. -/

namespace Sys2Proof.Machine

/-- Everything one step of the core can do (40_cycle R100). -/
theorem coreStep_cases {s t : State} (h : coreStep s = .next t) :
    (s.mode ≠ .running ∧ t = s) ∨
    (s.mode = .running ∧ s.istore.length ≤ s.pc.toNat ∧ t = s.endRun) ∨
    (s.mode = .running ∧ ∃ i, Fetches s i ∧ exec i s.preAdvance = .next t) := by
  unfold coreStep at h
  split at h
  next hm =>
    split at h
    next hf =>
      cases h
      exact .inr (.inl ⟨hm, fetch_none.1 hf, rfl⟩)
    next => cases h
    next i hf =>
      have hk : s.pc.toNat < s.istore.length := by
        by_contra hk
        rw [fetch_none.2 (Nat.le_of_not_lt hk)] at hf
        cases hf
      refine .inr (.inr ⟨hm, i, ⟨hk, ?_⟩, h⟩)
      simpa [fetch, Memory.read, hk] using hf
  next hm =>
    cases h
    exact .inl ⟨hm, rfl⟩

/-- Everything one move can do (70_reset R212 to R214, R221; 40_cycle R100). -/
theorem step_cases {s t : State} (h : step s = .next t) :
    (s.hostCmd = .reset ∧ t = hostReset s.popHost) ∨
    (∃ p, s.hostCmd = .load p ∧ s.mode ≠ .running ∧ Loadable p ∧ t = s.popHost.loadProgram p) ∨
    (∃ p, s.hostCmd = .load p ∧ s.mode ≠ .running ∧ ¬ Loadable p ∧ t = s.popHost.rejectLoad) ∨
    (s.hostCmd = .start ∧ s.mode = .idle ∧ t = { s.popHost with mode := .running }) ∨
    (s.hostCmd = .start ∧ s.mode ≠ .idle ∧ t = s.popHost) ∨
    (s.hostCmd = .none ∧ s.mode ≠ .running ∧ t = s.popHost) ∨
    (CoreMoves s ∧ s.istore.length ≤ s.pc.toNat ∧ t = s.popHost.endRun) ∨
    (CoreMoves s ∧ ∃ i, Fetches s i ∧ exec i s.popHost.preAdvance = .next t) := by
  unfold step at h
  split at h
  next hc =>
    obtain ⟨hm, rfl⟩ | ⟨hm, hl, rfl⟩ | ⟨hm, i, hf, he⟩ := coreStep_cases h
    · exact .inr (.inr (.inr (.inr (.inr (.inl ⟨hc, hm, rfl⟩)))))
    · exact .inr (.inr (.inr (.inr (.inr (.inr (.inl ⟨⟨hc, hm⟩, hl, rfl⟩))))))
    · exact .inr (.inr (.inr (.inr (.inr (.inr (.inr ⟨⟨hc, hm⟩, i, hf, he⟩))))))
  next hc =>
    cases h
    exact .inl ⟨hc, rfl⟩
  next p hc =>
    obtain ⟨-, e⟩ | ⟨hm, hw, e⟩ | ⟨hm, hw, e⟩ := hostLoad_cases p s.popHost <;> rw [e] at h <;> cases h
    · exact .inr (.inl ⟨p, hc, hm, (memory_wf_iff p).1 hw, rfl⟩)
    · exact .inr (.inr (.inl ⟨p, hc, hm, fun l => by simp [(memory_wf_iff p).2 l] at hw, rfl⟩))
  next hc =>
    obtain ⟨hm, e⟩ | ⟨hm, e⟩ := hostStart_cases s.popHost <;> rw [e] at h <;> cases h
    · exact .inr (.inr (.inr (.inl ⟨hc, hm, rfl⟩)))
    · exact .inr (.inr (.inr (.inr (.inl ⟨hc, hm, rfl⟩))))

/-- One step more of a run of any machine of the host's interface. -/
theorem run_succ_of_step {M : Host.Core} {s t : M.State} (k : Nat) (h : M.step s = .next t) :
    M.run (k + 1) s = M.run k t := by
  simp [Host.Core.run, h]

/-- The same for this machine, in its own names. -/
theorem core_run_succ {s t : State} (k : Nat) (h : step s = .next t) :
    Sys2Proof.core.run (k + 1) s = Sys2Proof.core.run k t :=
  run_succ_of_step (M := Sys2Proof.core) k h

end Sys2Proof.Machine
end

