-- ==== Sys2Proof/Tests/Slice0.lean ====
section
/-! SUPPORT. Tests of the model against the worked encodings (30_encoding R84) and the vectors (95_test_vectors), and a
witness for the hypotheses of every obligation that has some. -/

namespace Sys2Proof.Tests

open Sys2Proof.Machine

/-- A running core, the host silent, with the given store, pc and flag. -/
def running (p : List InstrWord) (pc : Word) (cf : Flag) : State :=
  { State.reset with istore := p, pc := pc, cf := cf, mode := .running }

/-- A running core after the fetch of index 0, with x[i] = v. -/
def withX (i : Nat) (v : Word) : State := (running [0] 1 0).writeReg i v

/-- The next state, where there is one. -/
def next? (r : Result) : Option State :=
  match r with
  | .next t => some t
  | .fault _ => none
  | .refused _ => none

/-- Register i of the next state. -/
def regOf (i : Nat) (r : Result) : Option Word := (next? r).bind fun t => t.x[i]?

/-- mode, err, pc and cf of the next state. -/
def endOf (r : Result) : Option (Mode × Option ErrorKind × Word × Flag) :=
  (next? r).map fun t => (t.mode, t.err, t.pc, t.cf)

/-! ### Well-formedness (30_encoding R76) -/

theorem test_wf_refuses_rd :
    (Instr.mov 256 (.imm 0)).wellFormed = false ∧ (Instr.add 256 (.imm 0)).wellFormed = false ∧
    (Instr.sub 256 (.imm 0)).wellFormed = false ∧ (Instr.mul 256 (.imm 0)).wellFormed = false ∧
    (Instr.div 256 (.imm 0)).wellFormed = false ∧ (Instr.cmp 256 (.imm 0)).wellFormed = false := by decide

theorem test_wf_refuses_rs :
    (Instr.mov 0 (.reg 256)).wellFormed = false ∧ (Instr.add 0 (.reg 256)).wellFormed = false ∧
    (Instr.sub 0 (.reg 256)).wellFormed = false ∧ (Instr.mul 0 (.reg 256)).wellFormed = false ∧
    (Instr.div 0 (.reg 256)).wellFormed = false ∧ (Instr.cmp 0 (.reg 256)).wellFormed = false := by decide

theorem test_wf_accepts_255 : (Instr.mov 255 (.reg 255)).wellFormed = true := by decide

/-! ### Decoding: words written out from 30_encoding R71 to R78 and R84 -/

-- R84
theorem test_decode_mov : decode 0x000000000000002A_0000000000000101#128 = .ok (.mov 0 (.imm 42)) := by decide
-- R71: RS = 7 at 31:24, RD = 2 at 23:16
theorem test_decode_mov_reg : decode 0x0000000000000000_0000000007020001#128 = .ok (.mov 2 (.reg 7)) := by decide
-- R84
theorem test_decode_add : decode 0xFFFFFFFFFFFFFFFF_0000000000030102#128 = .ok (.add 3 (.imm (-1))) := by decide
theorem test_decode_sub : decode 0x0000000000000000_0000000009090003#128 = .ok (.sub 9 (.reg 9)) := by decide
-- 95_test_vectors P1, index 4
theorem test_decode_mul : decode 0x0000000000000000_0000000001000004#128 = .ok (.mul 0 (.reg 1)) := by decide
-- R84
theorem test_decode_div : decode 0x0000000000000000_0000000001000005#128 = .ok (.div 0 (.reg 1)) := by decide
theorem test_decode_cmp : decode 0x0000000000000001_0000000000000106#128 = .ok (.cmp 0 (.imm 1)) := by decide
theorem test_decode_jmp : decode 0x0000000000000000_0000000000000007#128 = .ok (.jmp 0) := by decide
-- 95_test_vectors P1, index 3
theorem test_decode_je : decode 0x0000000000000007_0000000000000008#128 = .ok (.je 7) := by decide
-- R84
theorem test_decode_jne : decode 0x0000000000000063_0000000000000009#128 = .ok (.jne 99) := by decide
-- 95_test_vectors P2, index 5, and P4, index 2
theorem test_decode_jg : decode 0x0000000000000007_000000000000000A#128 = .ok (.jg 7) := by decide
theorem test_decode_jl : decode 0x0000000000000004_000000000000000B#128 = .ok (.jl 4) := by decide
-- R84
theorem test_decode_halt : decode 0x0000000000000000_000000000000000C#128 = .ok .halt := by decide

-- R78, R80: opcodes 0x00 and 0x0D to 0xFF
theorem test_decode_bad_opcodes : decode 0x00#128 = .error .opcode ∧ decode 0x0D#128 = .error .opcode ∧
    decode 0xFF#128 = .error .opcode := by decide
-- R72: each constraint of format RO; the last word is CY-7 of 95_test_vectors
theorem test_decode_bad_ro : decode 0x0201#128 = .error .reserved ∧ decode 0x8000000000000001#128 = .error .reserved ∧
    decode 0x0000000000000001_0000000000000001#128 = .error .payload ∧
    decode 0x0000000000000001_0000000003000101#128 = .error .sourceIndex := by decide
-- R73, R74
theorem test_decode_bad_b_n : decode 0x0107#128 = .error .branchBits ∧ decode 0x010C#128 = .error .haltBits ∧
    decode 0x8000000000000000_000000000000000C#128 = .error .haltBits := by decide

-- R84, the other way round
theorem test_encode_words : encode (.mov 10 (.imm 1)) = 0x0000000000000001_00000000000A0101#128 ∧
    encode (.sub 9 (.reg 9)) = 0x0000000000000000_0000000009090003#128 ∧
    encode (.jne 99) = 0x0000000000000063_0000000000000009#128 ∧ encode .halt = 0x0C#128 := by decide

-- R55: HALT is 0x0C and fifteen zero bytes
theorem test_serialise : serialise [0x0C#128] = 0x0C#8 :: List.replicate 15 0#8 := by decide

theorem test_table_word : decodeTableWord 128 0x04 = some (.mul 0 (.reg 0)) ∧ decodeTableWord 128 0x00 = none := by
  decide

/-! ### The instructions (95_test_vectors, section 2) -/

-- MOV-4, MOV-6
theorem test_mov_min : regOf 9 (exec (.mov 9 (.imm int64Min)) (withX 0 0)) = some int64Min := by decide
theorem test_mov_bad_source : endOf (exec (.mov 0 (.reg 10)) (withX 0 3)) =
    some (.faulted, some .invalidRegister, 1, 0) := by decide
-- ADD-2, ADD-4
theorem test_add_wraps : regOf 1 (exec (.add 1 (.imm 1)) (withX 1 int64Max)) = some int64Min := by decide
theorem test_add_doubles : regOf 1 (exec (.add 1 (.reg 1)) (withX 1 0x4000000000000000)) = some int64Min := by decide
-- SUB-3, SUB-1
theorem test_sub_min : regOf 1 (exec (.sub 1 (.imm int64Min)) (withX 1 0)) = some int64Min := by decide
theorem test_sub_order : regOf 1 (exec (.sub 1 (.imm 7)) (withX 1 5)) = some (-2) := by decide
-- MUL-7, MUL-5
theorem test_mul_wraps : regOf 0 (exec (.mul 0 (.reg 0)) (withX 0 3037000500)) =
    some (BitVec.ofInt 64 (-9223372036709301616)) := by decide
theorem test_mul_signs : regOf 0 (exec (.mul 0 (.imm (-3))) (withX 0 (-3))) = some 9 := by decide
-- DIV-2, DIV-5; DIV-9
theorem test_div_signs : regOf 0 (exec (.div 0 (.imm 2)) (withX 0 (-7))) = some (-3) ∧
    regOf 0 (exec (.div 0 (.imm (-1))) (withX 0 int64Min)) = some int64Min := by decide
theorem test_div_priority : endOf (exec (.div 10 (.imm 0)) (withX 0 9)) =
    some (.faulted, some .invalidRegister, 1, 0) := by decide
-- CMP-5; CMP-11
theorem test_cmp_exact : (endOf (exec (.cmp 3 (.imm int64Max)) (withX 3 int64Min))).map (·.2.2.2) = some 0b11 := by
  decide
theorem test_cmp_bad_source : endOf (exec (.cmp 0 (.reg 10)) (running [0] 1 0b11)) =
    some (.faulted, some .invalidRegister, 1, 0b11) := by decide
-- BR-1, BR-3
theorem test_jmp : endOf (exec (.jmp 0) (running [0, 0, 0, 0, 0] 5 0)) = some (.running, none, 0, 0) := by decide
theorem test_jmp_to_n : endOf (exec (.jmp 5) (running [0, 0, 0, 0, 0] 1 0)) =
    some (.faulted, some .invalidProgramCounter, 1, 0) := by decide
-- BR-7, BR-8
theorem test_je_taken : endOf (exec (.je 5) (running [0, 0, 0, 0, 0] 3 0)) =
    some (.faulted, some .invalidProgramCounter, 3, 0) := by decide
theorem test_je_not_taken : endOf (exec (.je 5) (running [0, 0, 0, 0, 0] 3 0b11)) =
    some (.running, none, 3, 0b11) := by decide
-- BR-9, BR-10
theorem test_jne_taken : endOf (exec (.jne 0) (running [0, 0, 0, 0, 0] 3 0b11)) =
    some (.running, none, 0, 0b11) := by decide
theorem test_jne_not_taken : endOf (exec (.jne 99) (running [0, 0, 0, 0, 0] 3 0)) =
    some (.running, none, 3, 0) := by decide
-- BR-12, BR-14
theorem test_jg_taken : endOf (exec (.jg 0) (running [0, 0, 0, 0, 0] 3 0b01)) =
    some (.running, none, 0, 0b01) := by decide
theorem test_jg_not_taken : endOf (exec (.jg 0) (running [0, 0, 0, 0, 0] 3 0b11)) =
    some (.running, none, 3, 0b11) := by decide
-- BR-15, BR-17
theorem test_jl_taken : endOf (exec (.jl 1) (running [0, 0, 0, 0, 0] 3 0b11)) =
    some (.running, none, 1, 0b11) := by decide
theorem test_jl_to_n : endOf (exec (.jl 3) (running [0, 0, 0] 1 0b11)) =
    some (.faulted, some .invalidProgramCounter, 1, 0b11) := by decide
-- CY-2
theorem test_halt : endOf (step (running [0x0C, 0x0C, 0x0C] 1 0)) = some (.halted, none, 2, 0) := by decide

/-! ### The cycle and the host (95_test_vectors, CY-1 to CY-9) -/

-- CY-1
theorem test_end_of_program : endOf (step (running [0x0C, 0x0C, 0x0C] 3 0)) = some (.halted, none, 3, 0) := by decide
-- R80
theorem test_invalid_word : step (running [0x00] 0 0) = .refused (.invalidWord .opcode) := rfl
-- S5
theorem test_bad_register : endOf (step (running [0x0000000000000001_00000000000A0101] 0 0)) =
    some (.faulted, some .invalidRegister, 1, 0) := by decide
-- CY-4
theorem test_start_in_faulted : endOf (step { running [0x0C] 1 0 with
    mode := .faulted, err := some .divisionByZero, hostCmds := [.start] }) =
    some (.faulted, some .divisionByZero, 1, 0) := by decide
-- CY-6
theorem test_load_rejected (s : State) (h : s.mode = .idle) :
    hostLoad [0x00] s = .next { s with loadOk := false } := by
  have e : decode 0x00#128 = .error .opcode := by decide
  simp [hostLoad, h, loadAccepted, Memory.wf, validWord, e, State.rejectLoad]
-- CY-9
theorem test_reset_in_running : step { running [0x0C] 1 0b01 with hostCmds := [.reset] } = .next State.reset := rfl
-- the host's probe: HALT placed after reset is the next instruction
theorem test_withFetchWord : endOf (step (State.reset.withFetchWord 128 0x0C)) = some (.halted, none, 1, 0) := by decide
theorem test_withFetchWord_at_3 :
    endOf (step ({ State.reset with pc := 3 }.withFetchWord 128 0x0C)) = some (.halted, none, 4, 0) := by decide

/-! ### Witnesses: the hypotheses of the obligations can be met -/

theorem halt_loadable : Loadable [0x0C#128] := by
  refine ⟨imemDepth_pos, fun w hw => ?_⟩
  rw [List.mem_singleton.1 hw]
  exact ⟨.halt, by decide⟩

theorem zero_not_loadable : ¬ Loadable [0x00#128] := fun h => by
  obtain ⟨i, hi⟩ := h.2 0x00#128 (by simp)
  rw [show decode 0x00#128 = .error .opcode by decide] at hi
  cases hi

theorem running_inv : Inv (running [0x0C#128] 0 0b01) :=
  ⟨by decide, by decide, (memory_wf_iff _).2 halt_loadable, by decide⟩

/-- An idle core, the host about to present `cs`. -/
def idle (cs : List HostCmd) : State := { State.reset with hostCmds := cs }

/-- A faulted core, the host about to present `cs`. -/
def faulted (cs : List HostCmd) : State :=
  { running [0x0C] 1 0 with mode := .faulted, err := some .divisionByZero, hostCmds := cs }

theorem witness_DecodeOfEncode : (Instr.mov 255 (.reg 255)).wellFormed = true ∧
    (Instr.jl 0xFFFFFFFFFFFFFFFF).wellFormed = true := by decide
theorem witness_EncodeOfDecode :
    decode 0xFFFFFFFFFFFFFFFF_0000000000FF0106#128 = .ok (.cmp 255 (.imm (-1))) := by decide
theorem witness_SerialisedProgram : 0 < [0x0C#128].length ∧ 15 < 16 := by decide
theorem witness_ResetAndLoadValues : (idle [.reset]).hostCmd = .reset ∧ (idle [.load [0x0C]]).hostCmd = .load [0x0C] ∧
    (idle [.load [0x0C]]).mode ≠ .running ∧ Loadable [0x0C#128] := ⟨rfl, rfl, by decide, halt_loadable⟩
theorem witness_LoadAnswers_rejected : (faulted [.load [0x00]]).hostCmd = .load [0x00] ∧
    (faulted [.load [0x00]]).mode ≠ .running ∧ ¬ Loadable [0x00#128] := ⟨rfl, by decide, zero_not_loadable⟩
theorem witness_LoadWhileRunningStops : { running [] 0 0 with hostCmds := [.load []] }.hostCmd = .load [] ∧
    (running [] 0 0).mode = .running := by decide
theorem witness_StartTransaction : (idle [.start]).hostCmd = .start ∧ (idle [.start]).mode = .idle ∧
    (faulted [.start]).hostCmd = .start ∧ (faulted [.start]).mode ≠ .idle := by decide
theorem witness_LoadIdempotent :
    (idle [.load [0x0C], .load [0x0C]]).hostCmds = .load [0x0C] :: .load [0x0C] :: [] ∧
    (idle [.load [0x0C], .load [0x0C]]).mode ≠ .running ∧ Loadable [0x0C#128] :=
  ⟨rfl, by decide, halt_loadable⟩
theorem witness_LaunchState : (idle [.reset, .load [0x0C], .start]).hostCmds = .reset :: .load [0x0C] :: .start :: [] ∧
    (faulted [.load [0x0C], .start]).hostCmds = .load [0x0C] :: .start :: [] ∧ (faulted [.load [0x0C], .start]).mode ≠ .running ∧ Loadable [0x0C#128] := ⟨rfl, rfl, by decide, halt_loadable⟩
theorem witness_EmptyRunHalts : CoreMoves (running [] 0 0) ∧ (running [] 0 0).istore = [] ∧
    (idle [.reset, .load [], .start]).hostCmds = [.reset, .load [], .start] := ⟨⟨rfl, rfl⟩, rfl, rfl⟩
theorem witness_OutputPorts : (faulted []).mode = .faulted ∧ { faulted [] with mode := .halted }.mode = .halted ∧
    Inv (running [0x0C#128] 0 0b01) := ⟨rfl, rfl, running_inv⟩
theorem witness_StepRunsInstruction : CoreMoves (running [0x07, 0x0C] 1 0) ∧ Fetches (running [0x07, 0x0C] 1 0) .halt :=
  ⟨⟨rfl, rfl⟩, by decide, by decide⟩
theorem witness_StepEndsRun : CoreMoves (running [0x0C] 1 0) ∧ (running [0x0C] 1 0).istore.length ≤
    (running [0x0C] 1 0).pc.toNat := ⟨⟨rfl, rfl⟩, by decide⟩
theorem witness_StepRefusesInvalidWord : CoreMoves (running [0x0D] 0 0) ∧
    decode ((running [0x0D] 0 0).istore[0]'(by decide)) = .error .opcode := ⟨⟨rfl, rfl⟩, by decide⟩
theorem witness_CoreRests : (idle [.none]).hostCmd = .none ∧ (idle []).mode ≠ .running ∧ (faulted []).mode ≠ .running := by
  decide
theorem witness_SelfJumpLoops : (running [0x0C, 0x0000000000000001_0000000000000007] 1 0).mode = .running ∧
    (running [0x0C, 0x0000000000000001_0000000000000007] 1 0).hostCmds = [] ∧
    Fetches (running [0x0C, 0x0000000000000001_0000000000000007] 1 0) (.jmp 1) :=
  ⟨rfl, rfl, by decide, by decide⟩
theorem witness_EndedRunIsAbsorbing : step (faulted []) = .next (faulted []) ∧
    step (faulted [.reset]) = .next State.reset := ⟨rfl, rfl⟩
theorem witness_StoreReplacedOnlyByHost : ∃ t, step (faulted [.load [0x0C]]) = .next t ∧
    step (faulted [.reset]) = .next State.reset ∧ State.reset.istore ≠ (faulted []).istore :=
  ⟨_, (hostLoad_cases [0x0C#128] (faulted [])).elim (fun h => absurd h.1 (by decide))
    (fun h => h.elim (fun h => h.2.2) (fun h => by simp [(memory_wf_iff _).2 halt_loadable] at h)), rfl, by decide⟩
theorem witness_RegisterWriters : regOf 9 (step (running [0x0000000000000005_0000000000090101] 0 0)) = some 5 := by decide
theorem witness_FlagWriters : endOf (step (running [0x0000000000000001_0000000000000106] 0 0)) =
    some (.running, none, 1, 0b11) := by decide
theorem witness_ErrWriters : step (faulted [.reset]) = .next State.reset ∧ State.reset.err ≠ (faulted [.reset]).err ∧
    endOf (step (running [0x0105] 0 0)) = some (.faulted, some .divisionByZero, 1, 0) := ⟨rfl, by decide, by decide⟩
theorem witness_NextPc : CoreMoves (running [0x0000000000000001_000000000000000B, 0x0C] 0 0b11) ∧
    Fetches (running [0x0000000000000001_000000000000000B, 0x0C] 0 0b11) (.jl 1) ∧
    Taken (running [0x0000000000000001_000000000000000B, 0x0C] 0 0b11) 1 (.jl 1) ∧
    endOf (step (running [0x0000000000000001_000000000000000B, 0x0C] 0 0b11)) = some (.running, none, 1, 0b11) :=
  ⟨⟨rfl, rfl⟩, ⟨by decide, by decide⟩, by simp [Taken]; decide, by decide⟩
theorem witness_PreAdvanceNoWrap : Inv (running [0x0C#128] 0 0b01) ∧ Fetches (running [0x0C#128] 0 0b01) .halt :=
  ⟨running_inv, by decide, by decide⟩
theorem witness_FaultIsPrecise : CoreMoves (running [0x0105] 0 0) ∧ Fetches (running [0x0105] 0 0) (.div 0 (.imm 0)) ∧
    endOf (step (running [0x0105] 0 0)) = some (.faulted, some .divisionByZero, 1, 0) :=
  ⟨⟨rfl, rfl⟩, ⟨by decide, by decide⟩, by decide⟩
-- every cause met by a fetched instruction: 10 is the first bad index, 0 the divisor, N the first bad target
theorem witness_ErrorCauses : Fetches (running [0x0000000000000001_00000000000A0101] 0 0) (.mov 10 (.imm 1)) ∧
    Fetches (running [0x0105] 0 0) (.div 0 (.imm 0)) ∧
    Fetches (running [0x0000000000000001_0000000000000008] 0 0) (.je 1) ∧
    endOf (step (running [0x0000000000000001_0000000000000008] 0 0)) =
      some (.faulted, some .invalidProgramCounter, 1, 0) :=
  ⟨⟨by decide, by decide⟩, ⟨by decide, by decide⟩, ⟨by decide, by decide⟩, by decide⟩
theorem witness_ErrorCauses_terms : RegisterOperand 10 (.imm 1) (.mov 10 (.imm 1)) ∧ OperandInvalid (.reg 10) ∧
    OperandIs (running [] 0 0) (.imm 0) 0 ∧ Taken (running [0x07] 0 0) 1 (.je 1) :=
  ⟨.inl rfl, ⟨10, rfl, Nat.le_refl 10⟩, .inl rfl, by simp [Taken, running, State.reset]⟩
theorem witness_StepKeepsInv : Inv (running [0x0C#128] 0 0b01) ∧
    endOf (step (running [0x0C#128] 0 0b01)) = some (.halted, none, 1, 0b01) := ⟨running_inv, by decide⟩
-- AlwaysAMove and RunKeepsStore
theorem witness_AlwaysAMove : Inv (running [0x0C#128] 0 0b01) ∧ (running [0x0C#128] 0 0b01).hostCmd = .none ∧
    (running [0x0C#128] 0 0b01).hostCmds = [] := ⟨running_inv, rfl, rfl⟩
theorem witness_OnlySignOfFlagRead : (0b10#2).toInt.sign = (0b11#2).toInt.sign ∧ (0b10#2) ≠ (0b11#2) ∧
    endOf (exec (.jl 1) (running [0, 0, 0, 0, 0] 3 0b11)) = some (.running, none, 1, 0b11) := by decide
-- StatusNotRead and SignalIgnoresStatus: the three signals
theorem witness_SignalIgnoresStatus : endOf (exec (.jmp 0) (running [0] 1 0)) = some (.running, none, 0, 0) ∧
    endOf (exec (.jmp 1) (running [0] 1 0)) = some (.faulted, some .invalidProgramCounter, 1, 0) ∧
    endOf (exec (.jmp 1) (faulted [])) = some (.faulted, some .invalidProgramCounter, 1, 0) := by decide
theorem witness_StatusNotRead : endOf (exec .halt (running [] 1 0)) = some (.halted, none, 1, 0) := by decide
theorem witness_OperandResolver : 9 < 10 ∧ 10 ≤ 10 := by decide
-- the first clauses of MovEffect, AddEffect, SubEffect, MulEffect, DivEffect, CmpEffect; ModularArithmetic, ArithmeticLaws
theorem witness_operands_valid : OperandIs (withX 9 5) (.reg 9) 5 ∧ OperandIs (withX 9 5) (.imm (-1)) (-1) ∧ 9 < 10 ∧
    (-1 : Word) ≠ 0 := ⟨.inr ⟨9, by decide, rfl, by decide⟩, .inl rfl, by decide, by decide⟩
-- the clauses of the same statements where an index is invalid
theorem witness_operands_invalid : OperandInvalid (.reg 10) ∧ 10 ≤ 10 := ⟨⟨10, rfl, Nat.le_refl 10⟩, Nat.le_refl 10⟩
-- DivEffect and DivRoundsTowardZero
theorem witness_DivEffect : OperandIs (withX 4 0) (.reg 4) 0 ∧ (withX 0 int64Min).x[0] = int64Min ∧
    ¬ ((withX 0 7).x[0] = int64Min ∧ (2 : Word) = -1) := ⟨.inr ⟨4, by decide, rfl, by decide⟩, by decide, by decide⟩
theorem witness_BranchEffect : BranchTo 4 (.jl 4) ∧ Taken (running [0, 0, 0, 0, 0] 3 0b11) 4 (.jl 4) ∧
    (4 : Word).toNat < (running [0, 0, 0, 0, 0] 3 0b11).istore.length ∧
    (running [0, 0, 0, 0, 0] 3 0b11).istore.length ≤ (5 : Word).toNat ∧
    ¬ Taken (running [0, 0, 0, 0, 0] 3 0) 4 (.jl 4) := by
  simp [BranchTo, Taken, running, State.reset]
theorem witness_HaltEffect : CoreMoves (running [0x0C] 0 0) ∧ Fetches (running [0x0C] 0 0) .halt :=
  ⟨⟨rfl, rfl⟩, by decide, by decide⟩
theorem witness_RegisterWritingFrame : WritesReg 1 (.add 1 (.imm 1)) ∧
    regOf 1 (exec (.add 1 (.imm 1)) (withX 1 4)) = some 5 := ⟨⟨.imm 1, by simp⟩, by decide⟩
theorem witness_CmpFrame : endOf (exec (.cmp 9 (.imm 4)) (withX 9 5)) = some (.running, none, 1, 0b01) := by decide
theorem witness_BranchFrame : BranchTo 0 (.jmp 0) ∧
    endOf (exec (.jmp 0) (running [0] 1 0b11)) = some (.running, none, 0, 0b11) := ⟨.inl rfl, by decide⟩
theorem witness_HaltFrame : exec .halt (running [0x0C] 1 0) = .next { running [0x0C] 1 0 with mode := .halted } := rfl

end Sys2Proof.Tests
end

/-! SUPPORT. The state family (10_state): what RESET and LOAD leave, who writes the store, the registers, the flag and
err, the frames of the instructions, and what an instruction cannot see. -/

namespace Sys2Proof.Machine

/-! ### RESET and LOAD (10_state R36; 70_reset R212, R213) -/

@[simp] theorem reset_x (i : Nat) (h : i < 10) : State.reset.x[i] = 0 := by simp [State.reset]

theorem step_of_reset {s : State} (h : s.hostCmd = .reset) : step s = .next (hostReset s.popHost) := by
  simp [step, h]

theorem hostLoad_of_loadable {p : List InstrWord} {s : State} (hm : s.mode ≠ .running) (hp : Loadable p) :
    hostLoad p s = .next (s.loadProgram p) := by
  obtain ⟨h, -⟩ | ⟨-, -, e⟩ | ⟨-, h, -⟩ := hostLoad_cases p s
  · exact absurd h hm
  · exact e
  · simp [(memory_wf_iff p).2 hp] at h

theorem step_of_load_loadable {p : List InstrWord} {s : State} (h : s.hostCmd = .load p) (hm : s.mode ≠ .running)
    (hp : Loadable p) : step s = .next (s.popHost.loadProgram p) := by
  simp only [step, h]
  exact hostLoad_of_loadable hm hp

/-- Settles O6, by the values `State.reset` is written with. -/
theorem resetState : Obligations.ResetState :=
  ⟨reset_x, rfl, rfl, rfl, rfl, rfl, rfl⟩

/-- Settles O7: each transaction is one known next state, whose fields are read off. -/
theorem resetAndLoadValues : Obligations.ResetAndLoadValues := by
  constructor
  · intro s h
    exact ⟨_, step_of_reset h, reset_x, rfl, rfl, rfl, rfl, rfl, rfl⟩
  · intro s p h hm hp
    exact ⟨_, step_of_load_loadable h hm hp, rfl, rfl, rfl, rfl, rfl, rfl, rfl, rfl⟩

/-! ### Which instruction can have which effect -/

theorem Taken.branchTo {s : State} {a : Word} {i : Instr} (h : Taken s a i) : BranchTo a i := by
  obtain rfl | ⟨rfl, -⟩ | ⟨rfl, -⟩ | ⟨rfl, -⟩ | ⟨rfl, -⟩ := h <;> simp [BranchTo]

theorem WritesReg.not_branchTo {rd : Nat} {a : Word} {i : Instr} (h : WritesReg rd i) : ¬ BranchTo a i := by
  obtain ⟨src, rfl | rfl | rfl | rfl | rfl⟩ := h <;> simp [BranchTo]

/-- RD of an instruction that writes a register is one register. -/
theorem WritesReg.unique {rd rd' : Nat} {i : Instr} (h : WritesReg rd i) (h' : WritesReg rd' i) : rd' = rd := by
  obtain ⟨src, rfl | rfl | rfl | rfl | rfl⟩ := h <;> simpa [WritesReg, eq_comm] using h'

/-- MOV, ADD, SUB, MUL and DIV write RD or fail (41_move R120; 42_arithmetic R130 to R133). -/
theorem Effect.of_writesReg {s t : State} {rd : Nat} {i : Instr} (w : WritesReg rd i) (h : Effect s i t) :
    (∃ v, t = s.writeReg rd v) ∨ ∃ e, t = s.raise e := by
  cases h with
  | wrote v w' => exact .inl ⟨v, by rw [w.unique w']⟩
  | compared _ _ e => subst e; simp [WritesReg] at w
  | jumped tk => exact absurd tk.branchTo w.not_branchTo
  | fellThrough b =>
    obtain ⟨a, b⟩ := b
    exact absurd (.inr b) (w.not_branchTo (a := a))
  | halted e => subst e; simp [WritesReg] at w
  | badRegister => exact .inr ⟨_, rfl⟩
  | dividedByZero => exact .inr ⟨_, rfl⟩
  | badTarget => exact .inr ⟨_, rfl⟩

/-- CMP writes the flag or fails on an index (43_compare R150). -/
theorem Effect.of_cmp {s t : State} {rd : Nat} {src : Operand} (h : Effect s (.cmp rd src) t) :
    (∃ f, t = s.setCf f) ∨ t = s.raise .invalidRegister := by
  cases h with
  | wrote _ w => simp [WritesReg] at w
  | compared a b => exact .inl ⟨_, rfl⟩
  | jumped tk => simp [Taken] at tk
  | fellThrough b => simp at b
  | halted e => cases e
  | badRegister => exact .inr rfl
  | dividedByZero e => cases e
  | badTarget tk => simp [Taken] at tk

/-- A branch writes pc, does nothing, or fails on its target (44_control R160). -/
theorem Effect.of_branchTo {s t : State} {a : Word} {i : Instr} (b : BranchTo a i) (h : Effect s i t) :
    (∃ a', t = s.setPc a') ∨ t = s ∨ t = s.raise .invalidProgramCounter := by
  cases h with
  | wrote _ w => exact absurd b w.not_branchTo
  | compared _ _ e => subst e; simp [BranchTo] at b
  | jumped => exact .inl ⟨_, rfl⟩
  | fellThrough => exact .inr (.inl rfl)
  | halted e => subst e; simp [BranchTo] at b
  | badRegister w =>
    obtain w | ⟨src, rfl⟩ := w
    · exact absurd b w.not_branchTo
    · simp [BranchTo] at b
  | dividedByZero e => subst e; simp [BranchTo] at b
  | badTarget => exact .inr (.inr rfl)

/-! ### Frames -/

/-- Settles O48: such an instruction writes RD or raises, and each of the two keeps the rest. -/
theorem registerWritingFrame : Obligations.RegisterWritingFrame := by
  intro rd i s t w h
  obtain ⟨v, rfl⟩ | ⟨e, rfl⟩ := (exec_effect h).of_writesReg w
  · refine ⟨fun r hr hne => ?_, rfl, rfl, rfl, rfl, rfl, .inl ⟨rfl, rfl⟩⟩
    simp [Vector.getElem_setIfInBounds_ne hr hne.symm]
  · exact ⟨fun _ _ _ => rfl, rfl, rfl, rfl, rfl, rfl, .inr ⟨rfl, by simp, rfl⟩⟩

/-- Settles O49: CMP writes the flag or raises InvalidRegister. -/
theorem cmpFrame : Obligations.CmpFrame := by
  intro rd src s t h
  obtain ⟨f, rfl⟩ | rfl := (exec_effect h).of_cmp
  · exact ⟨rfl, rfl, rfl, rfl, rfl, .inl ⟨rfl, rfl⟩⟩
  · exact ⟨rfl, rfl, rfl, rfl, rfl, .inr ⟨rfl, rfl, rfl⟩⟩

/-- Settles O50: a branch writes pc, does nothing, or raises InvalidProgramCounter. -/
theorem branchFrame : Obligations.BranchFrame := by
  intro a i s t b h
  obtain ⟨a', rfl⟩ | rfl | rfl := (exec_effect h).of_branchTo b
  · exact ⟨rfl, rfl, rfl, rfl, rfl, .inl ⟨rfl, rfl⟩⟩
  · exact ⟨rfl, rfl, rfl, rfl, rfl, .inl ⟨rfl, rfl⟩⟩
  · exact ⟨rfl, rfl, rfl, rfl, rfl, .inr ⟨rfl, rfl, rfl⟩⟩

theorem exec_halt (s : State) : exec .halt s = .next s.endRun := rfl

/-- Settles O51: HALT answers `s.endRun`, which writes mode only. -/
theorem haltFrame : Obligations.HaltFrame := by
  intro s t h
  rw [exec_halt] at h
  cases h
  exact ⟨rfl, rfl, rfl, rfl, rfl, rfl, rfl⟩

/-! ### Who writes what (10_state R23, R29, R30, R32) -/

theorem writesReg_of_exec_changes_x {i : Instr} {s t : State} {r : Nat} (hr : r < 10) (h : exec i s = .next t)
    (hx : t.x[r] ≠ s.x[r]) : WritesReg r i := by
  cases exec_effect h with
  | @wrote rd v w =>
    have e : r = rd := by
      by_contra hne
      exact hx (by simp [Vector.getElem_setIfInBounds_ne hr (Ne.symm hne)])
    exact e ▸ w
  | _ => exact absurd rfl hx

theorem eq_cmp_of_exec_changes_cf {i : Instr} {s t : State} (h : exec i s = .next t) (hc : t.cf ≠ s.cf) :
    ∃ rd src, i = .cmp rd src := by
  cases exec_effect h with
  | compared _ _ e => exact ⟨_, _, e⟩
  | _ => exact absurd rfl hc

theorem faulted_of_exec_changes_err {i : Instr} {s t : State} (h : exec i s = .next t) (he : t.err ≠ s.err) :
    t.mode = .faulted ∧ t.err ≠ none := by
  cases exec_effect h with
  | badRegister | dividedByZero | badTarget => simp
  | _ => exact absurd rfl he

/-- The moves that write more than mode and the host ports: RESET, an accepted LOAD, and a step that runs a fetched
instruction. -/
theorem step_writers {s t : State} (h : step s = .next t) :
    (s.hostCmd = .reset ∧ t = hostReset s.popHost) ∨
    (∃ p, s.hostCmd = .load p ∧ s.mode ≠ .running ∧ Loadable p ∧ t = s.popHost.loadProgram p) ∨
    (CoreMoves s ∧ ∃ i, Fetches s i ∧ exec i s.popHost.preAdvance = .next t) ∨
    (t.x = s.x ∧ t.cf = s.cf ∧ t.istore = s.istore ∧ t.err = s.err) := by
  obtain c | c | ⟨-, -, -, -, rfl⟩ | ⟨-, -, rfl⟩ | ⟨-, -, rfl⟩ | ⟨-, -, rfl⟩ | ⟨-, -, rfl⟩ | c := step_cases h
  · exact .inl c
  · exact .inr (.inl c)
  on_goal 6 => exact .inr (.inr (.inl c))
  all_goals exact .inr (.inr (.inr ⟨rfl, rfl, rfl, rfl⟩))

/-- Settles O21: an instruction keeps the store (`exec_istore`), so only the two host transactions are left. -/
theorem storeReplacedOnlyByHost : Obligations.StoreReplacedOnlyByHost := by
  intro s t h hne
  obtain ⟨hc, -⟩ | ⟨p, hc, hm, hp, rfl⟩ | ⟨-, i, -, he⟩ | ⟨-, -, hs, -⟩ := step_writers h
  · exact .inl hc
  · exact .inr ⟨p, hc, hm, hp, rfl⟩
  · exact absurd (exec_istore he) hne
  · exact absurd hs hne

/-- Settles O22: an accepted LOAD keeps x, and of the instructions only the writers of RD change it. -/
theorem registerWriters : Obligations.RegisterWriters := by
  intro s t r hr h hne
  obtain ⟨hc, -⟩ | ⟨p, -, -, -, rfl⟩ | ⟨hm, i, hf, he⟩ | ⟨hx, -⟩ := step_writers h
  · exact .inl hc
  · exact absurd rfl hne
  · exact .inr ⟨hm, i, hf, writesReg_of_exec_changes_x hr he hne⟩
  · exact absurd (by rw [hx]) hne

/-- Settles O23: an accepted LOAD keeps cf, and of the instructions only CMP changes it. -/
theorem flagWriters : Obligations.FlagWriters := by
  intro s t h hne
  obtain ⟨hc, -⟩ | ⟨p, -, -, -, rfl⟩ | ⟨hm, i, hf, he⟩ | ⟨-, hcf, -⟩ := step_writers h
  · exact .inl hc
  · exact absurd rfl hne
  · obtain ⟨rd, src, rfl⟩ := eq_cmp_of_exec_changes_cf he hne
    exact .inr ⟨hm, rd, src, hf⟩
  · exact absurd hcf hne

/-- Settles O24: RESET and an accepted LOAD clear err, and an instruction changes it only by entering FAULTED. -/
theorem errWriters : Obligations.ErrWriters := by
  intro s t h hne
  obtain ⟨hc, rfl⟩ | ⟨p, hc, -, -, rfl⟩ | ⟨hm, i, -, he⟩ | ⟨-, -, -, herr⟩ := step_writers h
  · exact .inl ⟨rfl, .inl hc⟩
  · exact .inl ⟨rfl, .inr ⟨p, hc⟩⟩
  · exact .inr ⟨hm, faulted_of_exec_changes_err he hne⟩
  · exact absurd herr hne

/-- Settles O20: of the moves of `step_cases`, those of a running or an idle core cannot happen, RESET and an accepted
LOAD leave IDLE, and the others keep the state. -/
theorem endedRunIsAbsorbing : Obligations.EndedRunIsAbsorbing := by
  intro s t hs h
  have not_running : s.mode ≠ .running := by rintro e; simp [e] at hs
  have not_idle : s.mode ≠ .idle := by rintro e; simp [e] at hs
  obtain ⟨hc, rfl⟩ | ⟨p, hc, -, hp, rfl⟩ | ⟨-, -, -, -, rfl⟩ | ⟨-, hm, -⟩ | ⟨-, -, rfl⟩ | ⟨-, -, rfl⟩ |
    ⟨⟨-, hm⟩, -⟩ | ⟨⟨-, hm⟩, -⟩ := step_cases h
  · exact .inr ⟨rfl, .inl hc⟩
  · exact .inr ⟨rfl, .inr ⟨p, hc, hp⟩⟩
  · exact .inl ⟨rfl, rfl, rfl, rfl, rfl, rfl⟩
  · exact absurd hm not_idle
  · exact .inl ⟨rfl, rfl, rfl, rfl, rfl, rfl⟩
  · exact .inl ⟨rfl, rfl, rfl, rfl, rfl, rfl⟩
  · exact absurd hm not_running
  · exact absurd hm not_running

/-! ### The pre-advance (10_state R26) -/

/-- N fits a word in every store in its form (00_scope R8; 10_state R30). -/
theorem store_wf_length_le {m : Memory} (h : Memory.wf m = true) : m.length ≤ 18446744073709551615 :=
  ((memory_wf_iff m).1 h).1.trans imemDepth_le

/-- Settles O26: pc is below N, and N is at most IMEM_DEPTH, which is below 2^64. -/
theorem preAdvanceNoWrap : Obligations.PreAdvanceNoWrap := by
  rintro s i hi ⟨hlt, -⟩
  have hn := store_wf_length_le hi.store_wf
  exact BitVec.toNat_add_of_lt (show s.pc.toNat + 1 < 2 ^ 64 by omega)

/-! ### What an instruction cannot see (10_state R28, R34; 43_compare R153) -/

/-- What a handler does to the state it is given, its signal applied (40_cycle R106): one write at most, HALT, or an
error. It names the values it writes, so it can be applied to another state than the one that chose it. -/
inductive Action where
  | writeReg (rd : Nat) (v : Word)
  | setCf (f : Flag)
  | setPc (a : Word)
  | stay
  | halt
  | fail (e : ErrorKind)

/-- The state an action leaves. -/
def Action.apply : Action → State → State
  | .writeReg rd v, s => s.writeReg rd v
  | .setCf f, s => s.setCf f
  | .setPc a, s => s.setPc a
  | .stay, s => s
  | .halt, s => s.endRun
  | .fail e, s => s.raise e

/-- The instructions that can take an action: CMP sets the flag or fails, HALT halts, and no other does either. -/
def Action.Of (i : Instr) : Action → Prop
  | .setCf _ => ∃ rd src, i = .cmp rd src
  | .halt => i = .halt
  | .fail _ => i ≠ .halt
  | .writeReg _ _ | .setPc _ | .stay => i ≠ .halt ∧ ∀ rd src, i ≠ .cmp rd src

/-- Two states that agree on all an instruction can see: x, the store and the sign of the flag. -/
structure SameView (s u : State) : Prop where
  x_eq : u.x = s.x
  istore_eq : u.istore = s.istore
  sign_eq : u.cf.toInt.sign = s.cf.toInt.sign

/-- The same instruction takes the same action in both states, and it is one the instruction can take. -/
def ActsAlike (i : Instr) (s u : State) (r r' : Result) : Prop :=
  ∃ k : Action, k.Of i ∧ r = .next (k.apply s) ∧ r' = .next (k.apply u)

theorem OperandIs.of_x_eq {s u : State} {op : Operand} {v : Word} (hx : u.x = s.x) (h : OperandIs s op v) :
    OperandIs u op v := by
  obtain rfl | ⟨i, hi, rfl, rfl⟩ := h
  · exact .inl rfl
  · exact .inr ⟨i, hi, rfl, by rw [hx]⟩

/-- The shared handler shape sees x only: with the effect an action `act`, it takes the same action in both states. -/
theorem SameView.withOperands_alike {s u : State} (hv : SameView s u) {i : Instr} (act : Word → Word → Action)
    (hact : ∀ a b, (act a b).Of i) (hi : i ≠ .halt) (rd : Nat) (src : Operand) :
    ActsAlike i s u (withOperands rd src s fun a b => .next ((act a b).apply s))
      (withOperands rd src u fun a b => .next ((act a b).apply u)) := by
  obtain ⟨hr, b, hb, e⟩ | ⟨hbad, e⟩ := withOperands_cases rd src s fun a b => .next ((act a b).apply s)
  · refine ⟨act s.x[rd] b, hact _ _, e, ?_⟩
    rw [withOperands_ok _ hr (hb.of_x_eq hv.x_eq), hv.x_eq]
  · exact ⟨.fail .invalidRegister, hi, e, withOperands_invalid u _ hbad⟩

theorem SameView.take_alike {s u : State} (hv : SameView s u) {i : Instr} (hi : i ≠ .halt ∧ ∀ rd src, i ≠ .cmp rd src)
    (a : Word) : ActsAlike i s u (take a s) (take a u) := by
  obtain ⟨h, e⟩ | ⟨h, e⟩ := take_cases a s <;> obtain ⟨h', e'⟩ | ⟨h', e'⟩ := take_cases a u <;>
    rw [hv.istore_eq] at h'
  · exact ⟨.setPc a, hi, e, e'⟩
  · omega
  · omega
  · exact ⟨.fail .invalidProgramCounter, hi.1, e, e'⟩

theorem SameView.branchIf_alike {s u : State} (hv : SameView s u) {i : Instr}
    (hi : i ≠ .halt ∧ ∀ rd src, i ≠ .cmp rd src) {p q : Bool} (hq : q = p) (a : Word) :
    ActsAlike i s u (branchIf p a s) (branchIf q a u) := by
  subst hq
  cases q
  · exact ⟨.stay, hi, rfl, rfl⟩
  · exact hv.take_alike hi a

/-! The predicates of the branches read the sign of the flag only (43_compare R153). -/

section
variable {c d : Flag} (h : c.toInt.sign = d.toInt.sign)
include h

theorem toInt_eq_zero_iff_of_sign_eq : c.toInt = 0 ↔ d.toInt = 0 := by
  rw [← Int.sign_eq_zero_iff_zero, h, Int.sign_eq_zero_iff_zero]

theorem flagEq_of_sign_eq : flagEq c = flagEq d := by
  simp only [flagEq, toInt_eq_zero_iff_of_sign_eq h]

theorem flagNe_of_sign_eq : flagNe c = flagNe d := by
  simp only [flagNe, ne_eq, toInt_eq_zero_iff_of_sign_eq h]

theorem flagGt_of_sign_eq : flagGt c = flagGt d := by
  simp only [flagGt, ← Int.sign_eq_one_iff_pos, h]

theorem flagLt_of_sign_eq : flagLt c = flagLt d := by
  simp only [flagLt, ← Int.sign_eq_neg_one_iff_neg, h]

end

/-- DIV with its check of the divisor inside the action. -/
theorem execDiv_eq (rd : Nat) (src : Operand) (s : State) : execDiv rd src s = withOperands rd src s fun a b =>
    .next ((if b = 0 then Action.fail .divisionByZero else .writeReg rd (aluDiv a b)).apply s) := by
  unfold execDiv
  congr 1
  funext a b
  split <;> rfl

/-- The noninterference of every instruction: states that agree on x, the store and the flag's sign take one action. -/
theorem SameView.exec_alike {s u : State} (hv : SameView s u) (i : Instr) : ActsAlike i s u (exec i s) (exec i u) := by
  cases i with
  | mov rd src =>
    exact hv.withOperands_alike (fun _ b => .writeReg rd b) (by simp [Action.Of]) (by simp) rd src
  | add rd src =>
    exact hv.withOperands_alike (fun a b => .writeReg rd (aluAdd a b)) (by simp [Action.Of]) (by simp) rd src
  | sub rd src =>
    exact hv.withOperands_alike (fun a b => .writeReg rd (aluSub a b)) (by simp [Action.Of]) (by simp) rd src
  | mul rd src =>
    exact hv.withOperands_alike (fun a b => .writeReg rd (aluMul a b)) (by simp [Action.Of]) (by simp) rd src
  | div rd src =>
    simp only [exec, execDiv_eq]
    refine hv.withOperands_alike _ (fun a b => ?_) (by simp) rd src
    split <;> simp [Action.Of]
  | cmp rd src =>
    exact hv.withOperands_alike (fun a b => .setCf (compareFlag a b)) (by simp [Action.Of]) (by simp) rd src
  | jmp a => exact hv.take_alike (by simp) a
  | je a => exact hv.branchIf_alike (by simp) (flagEq_of_sign_eq hv.sign_eq) a
  | jne a => exact hv.branchIf_alike (by simp) (flagNe_of_sign_eq hv.sign_eq) a
  | jg a => exact hv.branchIf_alike (by simp) (flagGt_of_sign_eq hv.sign_eq) a
  | jl a => exact hv.branchIf_alike (by simp) (flagLt_of_sign_eq hv.sign_eq) a
  | halt => exact ⟨.halt, rfl, rfl, rfl⟩

/-- The same, for an instruction that is known to answer in one of the two states. -/
theorem SameView.exec_next {s u t : State} (hv : SameView s u) {i : Instr} (h : exec i s = .next t) :
    ∃ k : Action, k.Of i ∧ t = k.apply s ∧ exec i u = .next (k.apply u) := by
  obtain ⟨k, hk, hs, hu⟩ := hv.exec_alike i
  rw [hs] at h
  cases h
  exact ⟨k, hk, rfl, hu⟩

/-- Settles O34: both states take one action, which writes or keeps the flag alike in both. -/
theorem onlySignOfFlagRead : Obligations.OnlySignOfFlagRead := by
  intro i s t c hc h
  have hv : SameView s { s with cf := c } := ⟨rfl, rfl, hc⟩
  obtain ⟨k, hk, rfl, hu⟩ := hv.exec_next h
  refine ⟨_, hu, by cases k <;> rfl, fun hne => ?_, fun hcmp hnf => ?_⟩
  · cases k with
    | setCf f =>
      obtain ⟨rd, src, hi⟩ := hk
      exact absurd hi (hne rd src)
    | _ => rfl
  · obtain ⟨rd, src, rfl⟩ := hcmp
    cases k with
    | setCf f => rfl
    | fail e => exact absurd rfl hnf
    | halt => cases hk
    | writeReg | setPc | stay => exact absurd rfl (hk.2 rd src)

/-- Settles O35: both states take one action, and none writes a value that depends on the status. -/
theorem statusNotRead : Obligations.StatusNotRead := by
  intro i s t m e l q h
  have hv : SameView s { s with mode := m, err := e, loadOk := l, hostCmds := q } := ⟨rfl, rfl, rfl⟩
  obtain ⟨k, -, rfl, hu⟩ := hv.exec_next h
  exact ⟨_, hu, by cases k <;> exact ⟨rfl, rfl, rfl, rfl⟩⟩

/-- Settles O52: both states take one action, and the signal is the action's: Halt, Fail, and Continue for the rest. -/
theorem signalIgnoresStatus : Obligations.SignalIgnoresStatus := by
  intro i s t m e l q h
  have hv : SameView s { s with mode := m, err := e, loadOk := l, hostCmds := q } := ⟨rfl, rfl, rfl⟩
  obtain ⟨k, hk, rfl, hu⟩ := hv.exec_next h
  refine ⟨_, hu, ?_⟩
  cases k with
  | halt => exact ⟨.inr (.inl ⟨hk, rfl, rfl, rfl, rfl⟩), rfl, rfl, rfl, rfl⟩
  | fail k => exact ⟨.inr (.inr ⟨hk, k, rfl, rfl, rfl, rfl⟩), rfl, rfl, rfl, rfl⟩
  | setCf f =>
    obtain ⟨rd, src, rfl⟩ := hk
    exact ⟨.inl ⟨by simp, rfl, rfl, rfl, rfl⟩, rfl, rfl, rfl, rfl⟩
  | writeReg | setPc | stay => exact ⟨.inl ⟨hk.1, rfl, rfl, rfl, rfl⟩, rfl, rfl, rfl, rfl⟩

end Sys2Proof.Machine

/-! SUPPORT. The memory family (20_memory): a program as bytes (R55), what stands at each offset and how it is read
back. -/

namespace Sys2Proof

theorem getElem?_wordBytes (w : InstrWord) {j : Nat} (hj : j < 16) :
    (wordBytes w)[j]? = some (w.extractLsb' (8 * j) 8) := by
  simp [wordBytes, hj]

@[simp] theorem serialise_cons (w : InstrWord) (p : List InstrWord) :
    serialise (w :: p) = wordBytes w ++ serialise p := rfl

theorem length_serialise (p : List InstrWord) : (serialise p).length = 16 * p.length := by
  induction p with
  | nil => rfl
  | cons w p ih => simp [ih]; omega

theorem getElem?_serialise (p : List InstrWord) {k j : Nat} (hk : k < p.length) (hj : j < 16) :
    (serialise p)[16 * k + j]? = some (p[k].extractLsb' (8 * j) 8) := by
  induction p generalizing k with
  | nil => exact absurd hk (Nat.not_lt_zero k)
  | cons w p ih =>
    cases k with
    | zero =>
      rw [Nat.mul_zero, Nat.zero_add, serialise_cons, List.getElem?_append_left (by simpa using hj)]
      exact getElem?_wordBytes w hj
    | succ k =>
      have hoff : 16 * (k + 1) + j = (wordBytes w).length + (16 * k + j) := by rw [wordBytes_length]; omega
      rw [hoff, serialise_cons, List.getElem?_append_right (Nat.le_add_right _ _), Nat.add_sub_cancel_left]
      exact ih (Nat.lt_of_succ_lt_succ hk)

/-- The first 16 bytes are those of the first word. -/
theorem deserialise_wordBytes_append (n : Nat) (w : InstrWord) (bs : List Byte) :
    deserialise (n + 1) (wordBytes w ++ bs) = (deserialise n bs).map (w :: ·) := by
  simp [deserialise, List.take_left', List.drop_left', wordOfBytes_wordBytes]

theorem deserialise_serialise (p : List InstrWord) : deserialise p.length (serialise p) = some p := by
  induction p with
  | nil => rfl
  | cons w p ih => rw [serialise_cons, List.length_cons, deserialise_wordBytes_append, ih, Option.map_some]

/-- Settles O5: the byte at each offset, the length and the program read back, each by induction on the program. -/
theorem serialisedProgram : Obligations.SerialisedProgram :=
  fun p => ⟨fun _ _ hk hj => getElem?_serialise p hk hj, length_serialise p, deserialise_serialise p⟩

end Sys2Proof

/-! SUPPORT. The encoding family (30_encoding): decode and encode agree (R82), the valid words are those of the three
formats (R72 to R74, R78, R80), and an invalid word at fetch is refused (R80). -/

namespace Sys2Proof.Machine

/-! ### Format RO (30_encoding R72) -/

theorem fieldK_eq_ofBool (w : InstrWord) : fieldK w = BitVec.ofBool (w.getLsbD 8) := by
  apply BitVec.eq_of_getLsbD_eq
  intro i hi
  simp [fieldK, show i = 0 by omega]

theorem formatRO_iff (opc : BitVec 8) (w : InstrWord) : FormatRO opc w ↔
    fieldOpc w = opc ∧ fieldRes0 w = 0 ∧ fieldRes1 w = 0 ∧
    ((fieldK w = 0 ∧ fieldP w = 0) ∨ (fieldK w = 1 ∧ fieldRs w = 0)) := by
  rw [fieldK_eq_ofBool]
  unfold FormatRO fieldOpc fieldRes0 fieldRes1 fieldP fieldRs
  cases w.getLsbD 8 <;> simp

theorem formatRO_encodeRO (opc : BitVec 8) (rd : Nat) (src : Operand) : FormatRO opc (encodeRO opc rd src) := by
  rw [formatRO_iff]
  cases src <;> simp [encodeRO]

theorem decodeRO_encodeRO (mk : Nat → Operand → Instr) (opc : BitVec 8) {rd : Nat} {src : Operand} (hrd : rd < 256)
    (hsrc : src.wellFormed = true) : decodeRO mk (encodeRO opc rd src) = .ok (mk rd src) := by
  cases src with
  | imm v => simp [decodeRO, encodeRO, Nat.mod_eq_of_lt hrd]
  | reg rs =>
    have hrs : rs < 256 := of_decide_eq_true hsrc
    simp [decodeRO, encodeRO, Nat.mod_eq_of_lt hrd, Nat.mod_eq_of_lt hrs]

theorem exists_decodeRO_of_formatRO (mk : Nat → Operand → Instr) {opc : BitVec 8} {w : InstrWord}
    (h : FormatRO opc w) : ∃ i, decodeRO mk w = .ok i := by
  obtain ⟨-, h0, h1, ⟨hk, hp⟩ | ⟨hk, hrs⟩⟩ := (formatRO_iff opc w).1 h
  · exact ⟨_, by simp only [decodeRO, h0, h1, hk, hp]; rfl⟩
  · exact ⟨_, by simp only [decodeRO, h0, h1, hk, hrs]; rfl⟩

/-- What `decodeRO` reads, `encodeRO` writes: every field the format leaves free is in the instruction. -/
theorem encodeRO_of_decodeRO {mk : Nat → Operand → Instr} {w : InstrWord} {i : Instr} (h : decodeRO mk w = .ok i) :
    ∃ rd src, rd < 256 ∧ src.wellFormed = true ∧ i = mk rd src ∧ encodeRO (fieldOpc w) rd src = w := by
  unfold decodeRO at h
  split_ifs at h with hres hk hp hrs
  all_goals
    cases h
    obtain ⟨h0, h1⟩ : fieldRes0 w = 0 ∧ fieldRes1 w = 0 := by simpa using hres
    have hw := packRO_fields w h0 h1
  · refine ⟨_, .reg _, (fieldRd w).isLt, decide_eq_true (fieldRs w).isLt, rfl, ?_⟩
    have hp : fieldP w = 0 := by simpa using hp
    simpa [encodeRO, hk, hp] using hw
  · refine ⟨_, .imm _, (fieldRd w).isLt, rfl, rfl, ?_⟩
    have hrs : fieldRs w = 0 := by simpa using hrs
    have hk : fieldK w = 1 := (BitVec.eq_zero_or_eq_one _).resolve_left hk
    simpa [encodeRO, hk, hrs] using hw

/-! ### Formats B and N (30_encoding R73, R74) -/

theorem formatB_packB (opc : BitVec 8) (a : Word) : FormatB opc a (packB opc a) :=
  ⟨fieldOpc_packB opc a, fieldLow56_packB opc a, fieldP_packB opc a⟩

theorem decodeB_packB (mk : Word → Instr) (opc : BitVec 8) (a : Word) : decodeB mk (packB opc a) = .ok (mk a) := by
  simp [decodeB]

theorem decodeB_of_formatB (mk : Word → Instr) {opc : BitVec 8} {a : Word} {w : InstrWord} (h : FormatB opc a w) :
    decodeB mk w = .ok (mk a) := by
  obtain ⟨-, hlow, hp⟩ := h
  simp [decodeB, fieldLow56, fieldP, hlow, hp]

theorem packB_of_decodeB {mk : Word → Instr} {w : InstrWord} {i : Instr} (h : decodeB mk w = .ok i) :
    ∃ a, i = mk a ∧ packB (fieldOpc w) a = w := by
  unfold decodeB at h
  split_ifs at h with hlow
  cases h
  exact ⟨_, rfl, packB_fields w (not_not.1 hlow)⟩

theorem packN_of_decodeN {w : InstrWord} {i j : Instr} (h : decodeN j w = .ok i) : i = j ∧ packN (fieldOpc w) = w := by
  unfold decodeN at h
  split_ifs at h with hhigh
  cases h
  exact ⟨rfl, packN_fields w (not_not.1 hhigh)⟩

/-! ### The opcode table (30_encoding R78) -/

/-- A row of format RO: an opcode of the format, with the instruction that both the decoder and the encoder give it. -/
structure RowRO (opc : BitVec 8) (mk : Nat → Operand → Instr) : Prop where
  range : 1 ≤ opc.toNat ∧ opc.toNat ≤ 6
  encode_eq : ∀ rd src, encode (mk rd src) = encodeRO opc rd src
  wellFormed_eq : ∀ rd src, (mk rd src).wellFormed = (decide (rd < 256) && src.wellFormed)
  decode_eq : ∀ w, fieldOpc w = opc → decode w = decodeRO mk w

/-- A row of format B, in the same way. -/
structure RowB (opc : BitVec 8) (mk : Word → Instr) : Prop where
  range : 7 ≤ opc.toNat ∧ opc.toNat ≤ 11
  encode_eq : ∀ a, encode (mk a) = packB opc a
  wellFormed_eq : ∀ a, (mk a).wellFormed = true
  decode_eq : ∀ w, fieldOpc w = opc → decode w = decodeB mk w

theorem rowRO_mov : RowRO 0x01 .mov := ⟨by decide, fun _ _ => rfl, fun _ _ => rfl, fun w h => by simp [decode, h]⟩
theorem rowRO_add : RowRO 0x02 .add := ⟨by decide, fun _ _ => rfl, fun _ _ => rfl, fun w h => by simp [decode, h]⟩
theorem rowRO_sub : RowRO 0x03 .sub := ⟨by decide, fun _ _ => rfl, fun _ _ => rfl, fun w h => by simp [decode, h]⟩
theorem rowRO_mul : RowRO 0x04 .mul := ⟨by decide, fun _ _ => rfl, fun _ _ => rfl, fun w h => by simp [decode, h]⟩
theorem rowRO_div : RowRO 0x05 .div := ⟨by decide, fun _ _ => rfl, fun _ _ => rfl, fun w h => by simp [decode, h]⟩
theorem rowRO_cmp : RowRO 0x06 .cmp := ⟨by decide, fun _ _ => rfl, fun _ _ => rfl, fun w h => by simp [decode, h]⟩
theorem rowB_jmp : RowB 0x07 .jmp := ⟨by decide, fun _ => rfl, fun _ => rfl, fun w h => by simp [decode, h]⟩
theorem rowB_je : RowB 0x08 .je := ⟨by decide, fun _ => rfl, fun _ => rfl, fun w h => by simp [decode, h]⟩
theorem rowB_jne : RowB 0x09 .jne := ⟨by decide, fun _ => rfl, fun _ => rfl, fun w h => by simp [decode, h]⟩
theorem rowB_jg : RowB 0x0A .jg := ⟨by decide, fun _ => rfl, fun _ => rfl, fun w h => by simp [decode, h]⟩
theorem rowB_jl : RowB 0x0B .jl := ⟨by decide, fun _ => rfl, fun _ => rfl, fun w h => by simp [decode, h]⟩

theorem exists_rowRO {opc : BitVec 8} (h1 : 1 ≤ opc.toNat) (h6 : opc.toNat ≤ 6) : ∃ mk, RowRO opc mk := by
  obtain rfl | rfl | rfl | rfl | rfl | rfl :
    opc = 0x01 ∨ opc = 0x02 ∨ opc = 0x03 ∨ opc = 0x04 ∨ opc = 0x05 ∨ opc = 0x06 := by bv_omega
  exacts [⟨_, rowRO_mov⟩, ⟨_, rowRO_add⟩, ⟨_, rowRO_sub⟩, ⟨_, rowRO_mul⟩, ⟨_, rowRO_div⟩, ⟨_, rowRO_cmp⟩]

theorem exists_rowB {opc : BitVec 8} (h7 : 7 ≤ opc.toNat) (h11 : opc.toNat ≤ 11) : ∃ mk, RowB opc mk := by
  obtain rfl | rfl | rfl | rfl | rfl :
    opc = 0x07 ∨ opc = 0x08 ∨ opc = 0x09 ∨ opc = 0x0A ∨ opc = 0x0B := by bv_omega
  exacts [⟨_, rowB_jmp⟩, ⟨_, rowB_je⟩, ⟨_, rowB_jne⟩, ⟨_, rowB_jg⟩, ⟨_, rowB_jl⟩]

theorem decode_of_opcode_halt {w : InstrWord} (h : fieldOpc w = 0x0C) : decode w = decodeN .halt w := by
  simp [decode, h]

theorem decode_of_opcode_unassigned {w : InstrWord} (h : fieldOpc w = 0 ∨ 13 ≤ (fieldOpc w).toNat) :
    decode w = .error .opcode := by
  have h' : (fieldOpc w).toNat = 0 ∨ 13 ≤ (fieldOpc w).toNat := h.imp_left (by rintro e; simp [e])
  unfold decode
  split
  case h_13 => rfl
  all_goals omega

/-- Everything the decoder can read from a valid word, by its format. -/
theorem decode_cases {w : InstrWord} {i : Instr} (h : decode w = .ok i) :
    (∃ mk rd src, RowRO (fieldOpc w) mk ∧ rd < 256 ∧ src.wellFormed = true ∧ i = mk rd src ∧
      encodeRO (fieldOpc w) rd src = w) ∨
    (∃ mk a, RowB (fieldOpc w) mk ∧ i = mk a ∧ packB (fieldOpc w) a = w) ∨
    (i = .halt ∧ packN 0x0C = w) := by
  have hopc : (1 ≤ (fieldOpc w).toNat ∧ (fieldOpc w).toNat ≤ 6) ∨ (7 ≤ (fieldOpc w).toNat ∧ (fieldOpc w).toNat ≤ 11) ∨
      fieldOpc w = 0x0C ∨ (fieldOpc w = 0 ∨ 13 ≤ (fieldOpc w).toNat) := by bv_omega
  obtain ⟨h1, h6⟩ | ⟨h7, h11⟩ | h12 | hno := hopc
  · obtain ⟨mk, row⟩ := exists_rowRO h1 h6
    obtain ⟨rd, src, hw⟩ := encodeRO_of_decodeRO (row.decode_eq w rfl ▸ h)
    exact .inl ⟨mk, rd, src, row, hw⟩
  · obtain ⟨mk, row⟩ := exists_rowB h7 h11
    obtain ⟨a, hw⟩ := packB_of_decodeB (row.decode_eq w rfl ▸ h)
    exact .inr (.inl ⟨mk, a, row, hw⟩)
  · exact .inr (.inr (h12 ▸ packN_of_decodeN (decode_of_opcode_halt h12 ▸ h)))
  · rw [decode_of_opcode_unassigned hno] at h
    cases h

/-! ### Decode and encode agree (30_encoding R82) -/

theorem RowRO.decode_encode {opc : BitVec 8} {mk : Nat → Operand → Instr} (row : RowRO opc mk) {rd : Nat}
    {src : Operand} (h : (mk rd src).wellFormed = true) : decode (encode (mk rd src)) = .ok (mk rd src) := by
  obtain ⟨hrd, hsrc⟩ : rd < 256 ∧ src.wellFormed = true := by simpa [row.wellFormed_eq] using h
  rw [row.encode_eq, row.decode_eq _ (Laws.EncodeOpcode.ro opc rd src), decodeRO_encodeRO mk opc hrd hsrc]

theorem RowB.decode_encode {opc : BitVec 8} {mk : Word → Instr} (row : RowB opc mk) (a : Word) :
    decode (encode (mk a)) = .ok (mk a) := by
  rw [row.encode_eq, row.decode_eq _ (fieldOpc_packB opc a), decodeB_packB]

/-- Settles O1: the encoder packs the fields of the instruction's row, and the decoder reads the same row back. -/
theorem decodeOfEncode : Obligations.DecodeOfEncode := by
  intro i h
  cases i with
  | mov => exact rowRO_mov.decode_encode h
  | add => exact rowRO_add.decode_encode h
  | sub => exact rowRO_sub.decode_encode h
  | mul => exact rowRO_mul.decode_encode h
  | div => exact rowRO_div.decode_encode h
  | cmp => exact rowRO_cmp.decode_encode h
  | jmp a => exact rowB_jmp.decode_encode a
  | je a => exact rowB_je.decode_encode a
  | jne a => exact rowB_jne.decode_encode a
  | jg a => exact rowB_jg.decode_encode a
  | jl a => exact rowB_jl.decode_encode a
  | halt => simp [encode, decode_of_opcode_halt, decodeN]

/-- Settles O2: each format repacks to the word it was read from, its indices being 8-bit fields. -/
theorem encodeOfDecode : Obligations.EncodeOfDecode := by
  intro w i h
  obtain ⟨mk, rd, src, row, hrd, hsrc, rfl, hw⟩ | ⟨mk, a, row, rfl, hw⟩ | ⟨rfl, hw⟩ := decode_cases h
  · exact ⟨(row.encode_eq rd src).trans hw, by simp [row.wellFormed_eq, hrd, hsrc]⟩
  · exact ⟨(row.encode_eq a).trans hw, row.wellFormed_eq a⟩
  · exact ⟨hw, rfl⟩

/-! ### The valid words (30_encoding R80, R84) -/

/-- Settles O3: a valid word is packed by one of the formats, and the words of each format meet its row's decoder. -/
theorem validWordForm : Obligations.ValidWordForm := by
  intro w
  constructor
  · rintro ⟨i, h⟩
    obtain ⟨mk, rd, src, row, -, -, -, hw⟩ | ⟨mk, a, row, -, hw⟩ | ⟨-, hw⟩ := decode_cases h
    · have hf := formatRO_encodeRO (fieldOpc w) rd src
      rw [hw] at hf
      exact .inl ⟨_, row.range.1, row.range.2, hf⟩
    · have hf := formatB_packB (fieldOpc w) a
      rw [hw] at hf
      exact .inr (.inl ⟨_, a, row.range.1, row.range.2, hf⟩)
    · exact .inr (.inr (hw.symm.trans (by decide)))
  · rintro (⟨opc, h1, h6, hf⟩ | ⟨opc, a, h7, h11, hf⟩ | rfl)
    · obtain ⟨mk, row⟩ := exists_rowRO h1 h6
      rw [row.decode_eq w hf.1]
      exact exists_decodeRO_of_formatRO mk hf
    · obtain ⟨mk, row⟩ := exists_rowB h7 h11
      exact ⟨mk a, (row.decode_eq w hf.1).trans (decodeB_of_formatB mk hf)⟩
    · exact ⟨.halt, decodeOfEncode .halt rfl⟩

/-- Settles O4, by running the decoder on the six words. -/
theorem decodeWorkedWords : Obligations.DecodeWorkedWords := by
  unfold Obligations.DecodeWorkedWords
  decide

/-! ### An invalid word at fetch (30_encoding R80; 40_cycle R100) -/

theorem fetch_of_lt {s : State} (h : s.pc.toNat < s.istore.length) :
    fetch s = some (decode s.istore[s.pc.toNat]) := by
  simp [fetch, Memory.read, h]

theorem step_of_coreMoves {s : State} (h : CoreMoves s) : step s = coreStep s.popHost := by
  simp [step, h.1]

theorem coreStep_of_fetch_error {s : State} {why : Invalid} (hm : s.mode = .running)
    (hf : fetch s = some (.error why)) : coreStep s = .refused (.invalidWord why) := by
  simp [coreStep, hm, hf]

/-- Settles O17: on the core's move the fetch reads the word at pc, and its decoder's reason is the refusal. -/
theorem stepRefusesInvalidWord : Obligations.StepRefusesInvalidWord := by
  intro s hlt why hc hd
  have hf : fetch s.popHost = some (.error why) := (fetch_of_lt (s := s.popHost) hlt).trans (congrArg some hd)
  exact (step_of_coreMoves hc).trans (coreStep_of_fetch_error hc.2 hf)

end Sys2Proof.Machine

/-! SUPPORT. The cycle family (40_cycle): what a step of the core does with the instruction it fetches (R100 to R108), and
the invariant, which every move keeps (R109). -/

namespace Sys2Proof.Machine

/-! ### The operand resolver and the dispatch (40_cycle R104, R106) -/

/-- Settles O36: an operand below 10 has a value, one of 10 or more is invalid, and an immediate is its own value. -/
theorem operandResolver : Obligations.OperandResolver := by
  refine fun s => ⟨fun i hi => ?_, fun i hi => ?_, fun v => ?_⟩
  · exact val_of_operandIs (.inr ⟨i, hi, rfl, rfl⟩)
  · exact val_of_operandInvalid s ⟨i, rfl, hi⟩
  · exact val_of_operandIs (.inl rfl)

/-- Settles O33: every instruction takes an action, and an action leaves a state. -/
theorem everyInstructionAnswers : Obligations.EveryInstructionAnswers := by
  intro i s
  have hv : SameView s s := ⟨rfl, rfl, rfl⟩
  obtain ⟨k, -, h, -⟩ := hv.exec_alike i
  exact ⟨k.apply s, h⟩

/-! ### The step of the core (40_cycle R100 to R103) -/

theorem coreStep_of_fetches {s : State} {i : Instr} (hm : s.mode = .running) (hf : Fetches s i) :
    coreStep s = exec i s.preAdvance := by
  simp [coreStep, hm, fetch_of_fetches hf]

theorem coreStep_of_pc_ge {s : State} (hm : s.mode = .running) (h : s.istore.length ≤ s.pc.toNat) :
    coreStep s = .next s.endRun := by
  simp [coreStep, hm, fetch_none.2 h]

theorem coreStep_of_not_running {s : State} (hm : s.mode ≠ .running) : coreStep s = .next s := by
  unfold coreStep
  split
  · contradiction
  · rfl

theorem step_of_none {s : State} (h : s.hostCmd = .none) : step s = coreStep s.popHost := by
  simp [step, h]

/-- A silent host's schedule stays empty, so that the move is a step of the core on the state itself. -/
theorem step_of_silent {s : State} (h : s.hostCmds = []) : step s = coreStep s := by
  have hc : s.hostCmd = .none := by simp [State.hostCmd, h]
  have hp : s.popHost = s := by rw [State.popHost, h, List.tail_nil, ← h]
  rw [step_of_none hc, hp]

theorem step_of_fetches {s : State} {i : Instr} (hc : CoreMoves s) (hf : Fetches s i) :
    step s = exec i s.popHost.preAdvance :=
  (step_of_none hc.1).trans (coreStep_of_fetches (s := s.popHost) hc.2 hf)

/-- Settles O15, which writes the pre-advanced state out. -/
theorem stepRunsInstruction : Obligations.StepRunsInstruction :=
  fun _ _ hc hf => step_of_fetches hc hf

/-- Settles O16: the fetch answers no word at pc >= N. -/
theorem stepEndsRun : Obligations.StepEndsRun :=
  fun s hc h => (step_of_none hc.1).trans (coreStep_of_pc_ge (s := s.popHost) hc.2 h)

/-- Settles O18: no step of the core is enabled outside RUNNING. -/
theorem coreRests : Obligations.CoreRests :=
  fun s hc hm => (step_of_none hc).trans (coreStep_of_not_running (s := s.popHost) hm)

/-- Settles O19: the index fetched from is a target in range, and writing it undoes the pre-advance. -/
theorem selfJumpLoops : Obligations.SelfJumpLoops := by
  intro s hm hs hf
  have hlt : s.pc.toNat < s.istore.length := hf.1
  rw [step_of_silent hs, coreStep_of_fetches hm hf]
  obtain ⟨-, e⟩ | ⟨hge, -⟩ := take_cases s.pc s.preAdvance
  · exact e
  · exact absurd hlt (Nat.not_lt.2 hge)

/-! ### The pc after a step, and the precise fault (40_cycle R107, R108) -/

theorem pc_of_taken {s t : State} {a : Word} {i : Instr} (w : Taken s a i) (h : exec i s = .next t)
    (hm : t.mode ≠ .faulted) : a.toNat < s.istore.length ∧ t.pc = a := by
  rw [exec_of_taken w] at h
  obtain ⟨hlt, e⟩ | ⟨-, e⟩ := take_cases a s <;> rw [e] at h <;> cases h
  · exact ⟨hlt, rfl⟩
  · exact absurd rfl hm

theorem Effect.pc_of_not_taken {s t : State} {i : Instr} (h : Effect s i t) (w : ∀ a, ¬ Taken s a i) : t.pc = s.pc := by
  cases h with
  | jumped w' => exact absurd w' (w _)
  | _ => rfl

/-- Raising an error is the one way an instruction ends in FAULTED (60_exceptions R185). -/
theorem Effect.eq_raise_of_faulted {s t : State} {i : Instr} (h : Effect s i t) (hs : s.mode ≠ .faulted)
    (ht : t.mode = .faulted) : ∃ e, t = s.raise e := by
  cases h with
  | badRegister | dividedByZero | badTarget => exact ⟨_, rfl⟩
  | halted => cases ht
  | wrote | compared | jumped | fellThrough => exact absurd ht hs

/-- Settles O25: the branches read the flag the step starts with, and only a taken branch writes over the pre-advance. -/
theorem nextPc : Obligations.NextPc := by
  intro s t i hc hf h hm
  rw [step_of_fetches hc hf] at h
  constructor
  · exact fun a w => pc_of_taken (s := s.popHost.preAdvance) w h hm
  · exact fun w => (exec_effect h).pc_of_not_taken w

/-- Settles O27: the instruction ends by raising an error, which writes mode and err only. -/
theorem faultIsPrecise : Obligations.FaultIsPrecise := by
  intro s t i hc hf h ht
  rw [step_of_fetches hc hf] at h
  have running : s.popHost.preAdvance.mode ≠ .faulted := by simp [hc.2]
  obtain ⟨e, rfl⟩ := (exec_effect h).eq_raise_of_faulted running ht
  exact ⟨rfl, rfl, rfl, rfl, by simp⟩

/-! ### What keeps the invariant (40_cycle R109) -/

/-- Settles O30: pc and N are 0, cf is 0, and IDLE comes with no error. -/
theorem resetMeetsInv : Obligations.ResetMeetsInv where
  pc_le := Nat.le_refl 0
  cf_sign := by decide
  store_wf := reset_store_wf
  err_iff := by decide

section
variable {s : State} (h : Inv s)
include h

theorem Inv.popHost : Inv s.popHost := ⟨h.pc_le, h.cf_sign, h.store_wf, h.err_iff⟩

theorem Inv.rejectLoad : Inv s.rejectLoad := ⟨h.pc_le, h.cf_sign, h.store_wf, h.err_iff⟩

theorem Inv.loadProgram {p : List InstrWord} (hp : Loadable p) : Inv (s.loadProgram p) :=
  ⟨Nat.zero_le _, h.cf_sign, (memory_wf_iff p).2 hp, by simp⟩

/-- Between modes other than FAULTED, err stays `none`. -/
theorem Inv.setMode {m : Mode} (hs : s.mode ≠ .faulted) (hm : m ≠ .faulted) : Inv { s with mode := m } := by
  have herr : s.err = none := not_not.1 (mt h.err_iff.2 hs)
  exact ⟨h.pc_le, h.cf_sign, h.store_wf, by simp [hm, herr]⟩

theorem Inv.raise (e : ErrorKind) : Inv (s.raise e) := ⟨h.pc_le, h.cf_sign, h.store_wf, by simp⟩

/-- The index fetched from is below N, so one past it is at most N. -/
theorem Inv.preAdvance {i : Instr} (hf : Fetches s i) : Inv s.preAdvance := by
  refine ⟨?_, h.cf_sign, h.store_wf, h.err_iff⟩
  rw [State.preAdvance_pc, preAdvanceNoWrap s i h hf]
  exact hf.1

theorem Inv.effect {t : State} {i : Instr} (hm : s.mode = .running) (e : Effect s i t) : Inv t := by
  cases e with
  | wrote => exact ⟨h.pc_le, h.cf_sign, h.store_wf, h.err_iff⟩
  | compared a b => exact ⟨h.pc_le, compareFlag_ne a b, h.store_wf, h.err_iff⟩
  | jumped _ hlt => exact ⟨hlt.le, h.cf_sign, h.store_wf, h.err_iff⟩
  | fellThrough => exact h
  | halted => exact h.setMode (by simp [hm]) (by simp)
  | badRegister | dividedByZero | badTarget => exact h.raise _

end

theorem hostReset_inv (s : State) : Inv (hostReset s) := by
  obtain ⟨hpc, hcf, hstore, herr⟩ := resetMeetsInv
  exact ⟨hpc, hcf, hstore, herr⟩

/-- Settles O29, move by move: those of the host, the end of a run, and the effect of a fetched instruction on the
pre-advanced state. -/
theorem stepKeepsInv : Obligations.StepKeepsInv := by
  intro s t hi h
  obtain ⟨-, rfl⟩ | ⟨p, -, -, hp, rfl⟩ | ⟨p, -, -, -, rfl⟩ | ⟨-, hm, rfl⟩ | ⟨-, -, rfl⟩ | ⟨-, -, rfl⟩ |
    ⟨⟨-, hm⟩, -, rfl⟩ | ⟨⟨-, hm⟩, i, hf, he⟩ := step_cases h
  · exact hostReset_inv _
  · exact hi.popHost.loadProgram hp
  · exact hi.popHost.rejectLoad
  · exact hi.popHost.setMode (by simp [hm]) (by simp)
  · exact hi.popHost
  · exact hi.popHost
  · exact hi.popHost.setMode (by simp [hm]) (by simp)
  · exact (hi.popHost.preAdvance hf).effect hm (exec_effect he)

/-! ### Runs with the host silent (40_cycle R109; 70_reset_and_hazards R232) -/

/-- A store in its form holds valid words only, so the core refuses nothing. -/
theorem coreStep_answers {s : State} (hw : Memory.wf s.istore = true) : ∃ t, coreStep s = .next t := by
  by_cases hm : s.mode = .running
  · by_cases hlt : s.pc.toNat < s.istore.length
    · obtain ⟨i, hd⟩ := decode_of_store_wf hw hlt
      obtain ⟨t, ht⟩ := everyInstructionAnswers i s.preAdvance
      exact ⟨t, (coreStep_of_fetches hm ⟨hlt, hd⟩).trans ht⟩
    · exact ⟨_, coreStep_of_pc_ge hm (Nat.le_of_not_lt hlt)⟩
  · exact ⟨s, coreStep_of_not_running hm⟩

theorem exec_hostCmds {i : Instr} {s t : State} (h : exec i s = .next t) : t.hostCmds = s.hostCmds := by
  cases exec_effect h <;> rfl

theorem coreStep_frame {s t : State} (h : coreStep s = .next t) : t.istore = s.istore ∧ t.hostCmds = s.hostCmds := by
  obtain ⟨-, rfl⟩ | ⟨-, -, rfl⟩ | ⟨-, i, -, he⟩ := coreStep_cases h
  · exact ⟨rfl, rfl⟩
  · exact ⟨rfl, rfl⟩
  · exact ⟨exec_istore (s := s.preAdvance) he, exec_hostCmds (s := s.preAdvance) he⟩

/-- Settles O32, by induction on the number of moves: each is a step of the core, which answers, keeps the invariant and
leaves the store and the empty schedule. -/
theorem runKeepsStore : Obligations.RunKeepsStore := by
  intro k
  induction k with
  | zero => exact fun s hi hs => ⟨s, rfl, hi, rfl, hs⟩
  | succ k ih =>
    intro s hi hs
    obtain ⟨u, hu⟩ := coreStep_answers hi.store_wf
    have hstep : step s = .next u := (step_of_silent hs).trans hu
    obtain ⟨hstore, hcmds⟩ := coreStep_frame hu
    obtain ⟨t, hrun, ht, htstore, htcmds⟩ := ih u (stepKeepsInv s u hi hstep) (hcmds.trans hs)
    exact ⟨t, (core_run_succ k hstep).trans hrun, ht, htstore.trans hstore, htcmds⟩

end Sys2Proof.Machine

/-! SUPPORT. The data movement family (41_move): MOV writes its source's value into RD or fails on an index (R120). -/

namespace Sys2Proof.Machine

theorem exec_mov (rd : Nat) (src : Operand) (s : State) :
    exec (.mov rd src) s = withOperands rd src s fun _ b => .next (s.writeReg rd b) := rfl

/-- Settles O37: with both indices valid the handler writes RD, and the first invalid one raises InvalidRegister. -/
theorem movEffect : Obligations.MovEffect := by
  intro rd src s
  refine ⟨fun h b hb => ?_, fun h => ?_, formatRO_encodeRO 0x01 rd src⟩
  · rw [exec_mov, withOperands_ok _ h hb, writeReg_eq_set b s h]
  · rw [exec_mov, withOperands_invalid s _ h]
    rfl

end Sys2Proof.Machine

/-! SUPPORT. The arithmetic family (42_arithmetic): ADD, SUB and MUL narrow the exact result of their operands, which is
arithmetic modulo 2^64 (R130 to R132, R134, R136), and DIV rounds toward zero (R133, R135, R137). -/

namespace Sys2Proof.Machine

/-! ### ADD, SUB and MUL: an exact operation, narrowed (42_arithmetic R130 to R132) -/

/-- The instruction narrows the exact result of `op` on its two operands into RD. -/
def WrapsAround (mk : Nat → Operand → Instr) (op : Int → Int → Int) : Prop :=
  ∀ (rd : Nat) (src : Operand) (s : State), exec (mk rd src) s =
    withOperands rd src s fun a b => .next (s.writeReg rd (wrap64 (op a.toInt b.toInt)))

theorem wrapsAround_add : WrapsAround .add (· + ·) := fun _ _ _ => rfl
theorem wrapsAround_sub : WrapsAround .sub (· - ·) := fun _ _ _ => rfl
theorem wrapsAround_mul : WrapsAround .mul (· * ·) := fun _ _ _ => rfl

section

variable {mk : Nat → Operand → Instr} {op : Int → Int → Int} {rd : Nat} {src : Operand} {s : State}

theorem WrapsAround.exec_of_valid (hw : WrapsAround mk op) (h : rd < 10) {b v : Word} (hb : OperandIs s src b)
    (hv : wrap64 (op s.x[rd].toInt b.toInt) = v) : exec (mk rd src) s = .next { s with x := s.x.set rd v } := by
  rw [hw, withOperands_ok _ h hb, hv, writeReg_eq_set v s h]

theorem WrapsAround.exec_of_invalid (hw : WrapsAround mk op) (h : 10 ≤ rd ∨ OperandInvalid src) :
    exec (mk rd src) s = .next { s with mode := .faulted, err := some .invalidRegister } :=
  (hw rd src s).trans (withOperands_invalid s _ h)

end

/-- The value a valid pair of operands leaves in RD, the failure of an invalid one, and the word. -/
theorem WrapsAround.effect {mk : Nat → Operand → Instr} {op : Int → Int → Int} {opc : BitVec 8}
    (hw : WrapsAround mk op) (row : RowRO opc mk) (rd : Nat) (src : Operand) (s : State) :
    (∀ (h : rd < 10) (b : Word), OperandIs s src b →
      ∃ v : Word, v.toInt = Int.bmod (op s.x[rd].toInt b.toInt) (2 ^ 64) ∧
        exec (mk rd src) s = .next { s with x := s.x.set rd v }) ∧
    (10 ≤ rd ∨ OperandInvalid src →
      exec (mk rd src) s = .next { s with mode := .faulted, err := some .invalidRegister }) ∧
    FormatRO opc (encode (mk rd src)) := by
  refine ⟨fun h b hb => ⟨_, toInt_wrap64 _, hw.exec_of_valid h hb rfl⟩, hw.exec_of_invalid, ?_⟩
  rw [row.encode_eq]
  exact formatRO_encodeRO opc rd src

/-- Settles O38: ADD narrows the exact sum. -/
theorem addEffect : Obligations.AddEffect := wrapsAround_add.effect rowRO_add

/-- Settles O39: SUB narrows the exact difference. -/
theorem subEffect : Obligations.SubEffect := wrapsAround_sub.effect rowRO_sub

/-- Settles O40: MUL narrows the exact product. -/
theorem mulEffect : Obligations.MulEffect := wrapsAround_mul.effect rowRO_mul

/-! ### Narrowing is arithmetic modulo 2^64 (42_arithmetic R134, R136) -/

theorem wrap64_toInt_add (a b : Word) : wrap64 (a.toInt + b.toInt) = a + b :=
  BitVec.eq_of_toInt_eq ((toInt_wrap64 _).trans (BitVec.toInt_add a b).symm)

theorem wrap64_toInt_sub (a b : Word) : wrap64 (a.toInt - b.toInt) = a - b :=
  BitVec.eq_of_toInt_eq ((toInt_wrap64 _).trans BitVec.toInt_sub.symm)

theorem wrap64_toInt_mul (a b : Word) : wrap64 (a.toInt * b.toInt) = a * b :=
  BitVec.eq_of_toInt_eq ((toInt_wrap64 _).trans (BitVec.toInt_mul a b).symm)

/-- Settles O43: narrowing the exact sum, difference or product of two signed words is the word operation. -/
theorem modularArithmetic : Obligations.ModularArithmetic :=
  fun _ h _ _ _ hb => ⟨wrapsAround_add.exec_of_valid h hb (wrap64_toInt_add _ _),
    wrapsAround_sub.exec_of_valid h hb (wrap64_toInt_sub _ _), wrapsAround_mul.exec_of_valid h hb (wrap64_toInt_mul _ _)⟩

/-- Settles O44, from the laws of 0 and 1 modulo 2^64: writing x[r] back into r changes nothing. -/
theorem arithmeticLaws : Obligations.ArithmeticLaws := by
  intro r h s
  obtain ⟨add0, sub0, mul0⟩ := modularArithmetic r h (.imm 0) s 0 (.inl rfl)
  obtain ⟨-, -, mul1⟩ := modularArithmetic r h (.imm 1) s 1 (.inl rfl)
  rw [add_zero, Vector.set_getElem_self] at add0
  rw [sub_zero, Vector.set_getElem_self] at sub0
  rw [mul_one, Vector.set_getElem_self] at mul1
  rw [mul_zero] at mul0
  exact ⟨add0, sub0, mul1, mul0⟩

/-! ### DIV (42_arithmetic R133, R135, R137) -/

/-- The one quotient of two words that leaves 64 bits is INT64_MIN / -1, so no other is changed by narrowing. -/
theorem toInt_aluDiv {a b : Word} (h : ¬ (a = int64Min ∧ b = -1)) : (aluDiv a b).toInt = Int.tdiv a.toInt b.toInt := by
  rw [aluDiv, if_neg h, toInt_wrap64, ← BitVec.toInt_sdiv]
  exact BitVec.toInt_sdiv_of_ne_or_ne a b (not_and_or.1 h)

theorem exec_div (rd : Nat) (src : Operand) (s : State) : exec (.div rd src) s = withOperands rd src s fun a b =>
    if b = 0 then .next (s.raise .divisionByZero) else .next (s.writeReg rd (aluDiv a b)) := rfl

theorem exec_div_of_ne_zero {rd : Nat} {src : Operand} {s : State} {b : Word} (h : rd < 10) (hb : OperandIs s src b)
    (h0 : b ≠ 0) : exec (.div rd src) s = .next { s with x := s.x.set rd (aluDiv s.x[rd] b) } := by
  rw [exec_div, withOperands_ok _ h hb, if_neg h0, writeReg_eq_set _ s h]

/-- Settles O41: the quotient of a divisor other than 0, and the two failures in the order the handler checks them. -/
theorem divEffect : Obligations.DivEffect := by
  intro rd src s
  refine ⟨fun h b hb h0 => ⟨_, exec_div_of_ne_zero h hb h0, ?_⟩, fun h hb => ?_,
    fun h => (exec_div rd src s).trans (withOperands_invalid s _ h), formatRO_encodeRO 0x05 rd src⟩
  · split_ifs with hov
    · exact if_pos hov
    · exact toInt_aluDiv hov
  · rw [exec_div, withOperands_ok _ h hb, if_pos rfl]
    rfl

theorem abs_tmod_lt (a : Int) {b : Int} (h : b ≠ 0) : |a.tmod b| < |b| := by
  rw [Int.abs_eq_natAbs, Int.abs_eq_natAbs, Int.natAbs_tmod]
  exact Int.ofNat_lt.2 (Nat.mod_lt _ (Int.natAbs_pos.2 h))

/-- The remainder that rounding toward zero leaves has the dividend's sign or is 0. -/
theorem tmod_mul_self_nonneg (a b : Int) : 0 ≤ a.tmod b * a := by
  obtain ha | ha := le_total 0 a
  · exact mul_nonneg (Int.tmod_nonneg b ha) ha
  · have hneg : 0 ≤ -a.tmod b := Int.neg_tmod a b ▸ Int.tmod_nonneg b (Int.neg_nonneg.2 ha)
    exact mul_nonneg_of_nonpos_of_nonpos (Int.neg_nonneg.1 hneg) ha

/-- Settles O42: what the quotient leaves of the dividend is `Int.tmod`, below the divisor in size and of the dividend's
sign. -/
theorem divRoundsTowardZero : Obligations.DivRoundsTowardZero := by
  intro rd h src s b hb h0 hov
  refine ⟨_, exec_div_of_ne_zero h hb h0, ?_⟩
  have hrest : s.x[rd].toInt - (aluDiv s.x[rd] b).toInt * b.toInt = s.x[rd].toInt.tmod b.toInt := by
    rw [toInt_aluDiv hov, Int.tmod_def, Int.mul_comm]
  have hb0 : b.toInt ≠ 0 := fun e => h0 (BitVec.eq_of_toInt_eq e)
  rw [hrest]
  exact ⟨abs_tmod_lt _ hb0, tmod_mul_self_nonneg _ _⟩

end Sys2Proof.Machine

/-! SUPPORT. The compare family (43_compare): CMP stores the sign of the exact difference (R150 to R152), and the branches
read it (R153; 44_control R160 to R165). -/

namespace Sys2Proof.Machine

/-! ### CMP (43_compare R150 to R152) -/

/-- The three-way compare stores the sign of the difference over the mathematical integers. -/
theorem toInt_compareFlag (a b : Word) : (compareFlag a b).toInt = (a.toInt - b.toInt).sign := by
  unfold compareFlag
  split_ifs with hlt heq
  · rw [Int.sign_eq_neg_one_of_neg (Int.sub_neg_of_lt hlt)]
    rfl
  · rw [heq, Int.sub_self]
    rfl
  · have hpos : 0 < a.toInt - b.toInt := by omega
    rw [Int.sign_eq_one_of_pos hpos]
    rfl

theorem exec_cmp (rd : Nat) (src : Operand) (s : State) :
    exec (.cmp rd src) s = withOperands rd src s fun a b => .next (s.setCf (compareFlag a b)) := rfl

/-- Settles O45: with both indices valid the flag is the three-way compare, and the first invalid one raises
InvalidRegister. -/
theorem cmpEffect : Obligations.CmpEffect := by
  intro rd src s
  refine ⟨fun h b hb => ⟨_, toInt_compareFlag s.x[rd] b, ?_⟩,
    fun h => (exec_cmp rd src s).trans (withOperands_invalid s _ h), formatRO_encodeRO 0x06 rd src⟩
  rw [exec_cmp, withOperands_ok _ h hb]
  rfl

/-! ### The branches (43_compare R153; 44_control R160 to R165) -/

theorem take_of_lt {a : Word} {s : State} (h : a.toNat < s.istore.length) : take a s = .next (s.setPc a) :=
  if_pos h

theorem take_of_ge {a : Word} {s : State} (h : s.istore.length ≤ a.toNat) :
    take a s = .next (s.raise .invalidProgramCounter) :=
  if_neg (Nat.not_lt.2 h)

theorem branchIf_of_false {p : Bool} (h : p = false) (a : Word) (s : State) : branchIf p a s = .next s := by
  rw [h]
  rfl

/-- A branch that is not taken is no JMP, and the predicate of each of the others answers false. -/
theorem exec_of_not_taken {s : State} {a : Word} {i : Instr} (hb : BranchTo a i) (h : ¬ Taken s a i) :
    exec i s = .next s := by
  obtain rfl | rfl | rfl | rfl | rfl := hb
  · exact absurd (.inl rfl) h
  · exact branchIf_of_false (by simpa [Taken, flagEq] using h) a s
  · exact branchIf_of_false (by simpa [Taken, flagNe] using h) a s
  · exact branchIf_of_false (by simpa [Taken, flagGt] using h) a s
  · exact branchIf_of_false (by simpa [Taken, flagLt] using h) a s

theorem RowB.formatB_encode {opc : BitVec 8} {mk : Word → Instr} (row : RowB opc mk) (a : Word) :
    FormatB opc a (encode (mk a)) := by
  rw [row.encode_eq]
  exact formatB_packB opc a

/-- Settles O46: a taken branch is the range check of `take`, and one that is not taken answers the state it is given. -/
theorem branchEffect : Obligations.BranchEffect := by
  intro a s
  refine ⟨fun i hb => ⟨fun w hlt => ?_, fun w hge => ?_, exec_of_not_taken hb⟩, rowB_jmp.formatB_encode a,
    rowB_je.formatB_encode a, rowB_jne.formatB_encode a, rowB_jg.formatB_encode a, rowB_jl.formatB_encode a⟩
  · exact (exec_of_taken w).trans (take_of_lt hlt)
  · exact (exec_of_taken w).trans (take_of_ge hge)

end Sys2Proof.Machine

/-! SUPPORT. The control family (44_control): HALT ends the run with pc one past its index (R166). -/

namespace Sys2Proof.Machine

/-- Settles O47: a step that fetches HALT runs it on the pre-advanced state, of which it writes mode only. -/
theorem haltEffect : Obligations.HaltEffect := by
  refine ⟨exec_halt, fun s hc hf => ?_, by decide⟩
  have hstep : step s = .next s.popHost.preAdvance.endRun := (step_of_fetches hc hf).trans (exec_halt _)
  exact ⟨_, hstep, rfl, rfl, rfl, rfl, rfl, rfl⟩

end Sys2Proof.Machine

/-! SUPPORT. The exceptions family (60_exceptions): each error kind has one cause in the fetched instruction and the
state it runs on (R181 to R184), and a step raises the kind exactly when the cause is there. -/

namespace Sys2Proof.Machine

/-- The cause of an error kind in an instruction run on a state (60_exceptions R181, R182, R183; the order of R184). -/
def FaultCause (s : State) (i : Instr) : ErrorKind → Prop
  | .invalidRegister => ∃ rd src, RegisterOperand rd src i ∧ (10 ≤ rd ∨ OperandInvalid src)
  | .divisionByZero => ∃ rd src, i = .div rd src ∧ rd < 10 ∧ OperandIs s src 0
  | .invalidProgramCounter => ∃ a, Taken s a i ∧ s.istore.length ≤ a.toNat

/-! ### The register-operand instructions (40_cycle R105) -/

/-- The shape the six handlers share, its effect an action: past the index checks only the divisor of DIV can fail. -/
theorem RegisterOperand.exec_eq {rd : Nat} {src : Operand} {i : Instr} (h : RegisterOperand rd src i) (s : State) :
    ∃ act : Word → Word → Action, exec i s = withOperands rd src s (fun a b => .next ((act a b).apply s)) ∧
      ∀ a b e, act a b = .fail e → e = .divisionByZero ∧ i = .div rd src ∧ b = 0 := by
  obtain rfl | rfl | rfl | rfl | rfl | rfl := h
  · exact ⟨fun _ b => .writeReg rd b, rfl, by simp⟩
  · exact ⟨fun a b => .writeReg rd (aluAdd a b), rfl, by simp⟩
  · exact ⟨fun a b => .writeReg rd (aluSub a b), rfl, by simp⟩
  · exact ⟨fun a b => .writeReg rd (aluMul a b), rfl, by simp⟩
  · refine ⟨_, execDiv_eq rd src s, fun a b e he => ?_⟩
    split_ifs at he with hb
    cases he
    exact ⟨rfl, rfl, hb⟩
  · exact ⟨fun a b => .setCf (compareFlag a b), rfl, by simp⟩

/-- Failing is the one action that enters FAULTED. -/
theorem Action.eq_fail_of_apply_eq_raise {k : Action} {s : State} {e : ErrorKind} (hs : s.mode ≠ .faulted)
    (h : k.apply s = s.raise e) : k = .fail e := by
  have hmode : (k.apply s).mode = .faulted := congrArg State.mode h
  have herr : (k.apply s).err = some e := congrArg State.err h
  cases k with
  | fail e' =>
    cases herr
    rfl
  | halt => cases hmode
  | writeReg | setCf | setPc | stay => exact absurd hmode hs

/-- A failed index check raises InvalidRegister, and otherwise the action that fails is DIV's on a zero divisor. -/
theorem RegisterOperand.faultCause_of_raise {rd : Nat} {src : Operand} {i : Instr} {s : State} {e : ErrorKind}
    (hi : RegisterOperand rd src i) (hs : s.mode ≠ .faulted) (h : exec i s = .next (s.raise e)) : FaultCause s i e := by
  obtain ⟨act, hexec, hfail⟩ := hi.exec_eq s
  rw [hexec] at h
  obtain ⟨hr, b, hb, heq⟩ | ⟨hbad, heq⟩ := withOperands_cases rd src s fun a b => .next ((act a b).apply s)
  · have hact : act s.x[rd] b = .fail e :=
      Action.eq_fail_of_apply_eq_raise hs (Host.Outcome.next.inj (heq.symm.trans h))
    obtain ⟨rfl, rfl, rfl⟩ := hfail _ _ _ hact
    exact ⟨rd, src, rfl, hr, hb⟩
  · have herr : some ErrorKind.invalidRegister = some e :=
      congrArg State.err (Host.Outcome.next.inj (heq.symm.trans h))
    cases herr
    exact ⟨rd, src, hi, hbad⟩

/-! ### Every instruction -/

theorem FaultCause.exec_eq_raise {s : State} {i : Instr} {e : ErrorKind} (h : FaultCause s i e) :
    exec i s = .next (s.raise e) := by
  cases e with
  | invalidRegister =>
    obtain ⟨rd, src, hi, hbad⟩ := h
    obtain ⟨act, hexec, -⟩ := hi.exec_eq s
    exact hexec.trans (withOperands_invalid s _ hbad)
  | divisionByZero =>
    obtain ⟨rd, src, rfl, hr, hz⟩ := h
    rw [exec_div, withOperands_ok _ hr hz, if_pos rfl]
  | invalidProgramCounter =>
    obtain ⟨a, w, hge⟩ := h
    exact (exec_of_taken w).trans (take_of_ge hge)

theorem WritesReg.registerOperand {rd : Nat} {i : Instr} (h : WritesReg rd i) : ∃ src, RegisterOperand rd src i := by
  obtain ⟨src, rfl | rfl | rfl | rfl | rfl⟩ := h <;> exact ⟨src, by simp [RegisterOperand]⟩

theorem faultCause_of_exec_faulted {s t : State} {i : Instr} {e : ErrorKind} (hs : s.mode ≠ .faulted)
    (h : exec i s = .next t) (hm : t.mode = .faulted) (he : t.err = some e) : FaultCause s i e := by
  cases exec_effect h with
  | @badRegister rd w =>
    obtain ⟨src, hi⟩ : ∃ src, RegisterOperand rd src i :=
      w.elim WritesReg.registerOperand fun ⟨src, hcmp⟩ => ⟨src, by simp [RegisterOperand, hcmp]⟩
    cases he
    exact hi.faultCause_of_raise hs h
  | @dividedByZero rd src w =>
    have hi : RegisterOperand rd src i := by simp [RegisterOperand, w]
    cases he
    exact hi.faultCause_of_raise hs h
  | badTarget w hge =>
    cases he
    exact ⟨_, w, hge⟩
  | halted => cases hm
  | wrote | compared | jumped | fellThrough => exact absurd hm hs

/-- A step of the core raises an error kind exactly when it fetched an instruction with the cause of that kind: the end
of a run at pc >= N is no error (60_exceptions R183). -/
theorem step_raises_iff {s t : State} (hc : CoreMoves s) (h : step s = .next t) (e : ErrorKind) :
    t.mode = .faulted ∧ t.err = some e ↔ ∃ i, Fetches s i ∧ FaultCause s i e := by
  constructor
  · rintro ⟨hm, he⟩
    rw [step_of_none hc.1] at h
    obtain ⟨hrest, -⟩ | ⟨-, -, rfl⟩ | ⟨hrun, i, hf, hexec⟩ := coreStep_cases h
    · exact absurd hc.2 hrest
    · cases hm
    · have running : s.popHost.preAdvance.mode ≠ .faulted := by simp [hc.2]
      exact ⟨i, hf, faultCause_of_exec_faulted (s := s.popHost.preAdvance) running hexec hm he⟩
  · rintro ⟨i, hf, hcause⟩
    have hraise := FaultCause.exec_eq_raise (s := s.popHost.preAdvance) hcause
    rw [step_of_fetches hc hf, hraise] at h
    cases h
    exact ⟨rfl, rfl⟩

/-- Settles O28: `step_raises_iff` at each of the three kinds, its cause written out. -/
theorem errorCauses : Obligations.ErrorCauses := by
  refine fun s t hc h => ⟨?_, ?_, ?_⟩
  · simpa [FaultCause] using step_raises_iff hc h .invalidRegister
  · simpa [FaultCause] using step_raises_iff hc h .divisionByZero
  · simpa [FaultCause] using step_raises_iff hc h .invalidProgramCounter

end Sys2Proof.Machine

/-! SUPPORT. The reset and hazards family (70_reset_and_hazards): what LOAD and START answer (R213, R214, R218), what a
launch starts from (R216, R217), the output ports (R210), and that a move is always answered (R232). -/

namespace Sys2Proof.Machine

/-! ### The host's schedule (70_reset R210, R221) -/

theorem hostCmd_of_cons {s : State} {c : HostCmd} {cs : List HostCmd} (h : s.hostCmds = c :: cs) : s.hostCmd = c := by
  simp [State.hostCmd, h]

theorem popHost_of_cons {s : State} {c : HostCmd} {cs : List HostCmd} (h : s.hostCmds = c :: cs) :
    s.popHost = { s with hostCmds := cs } := by
  simp [State.popHost, h]

/-! ### LOAD (70_reset R213, R218, R219) -/

theorem step_of_load {p : List InstrWord} {s : State} (h : s.hostCmd = .load p) : step s = hostLoad p s.popHost := by
  simp [step, h]

theorem hostLoad_of_running {p : List InstrWord} {s : State} (hm : s.mode = .running) :
    hostLoad p s = .fault .loadWhileRunning := by
  simp [hostLoad, hm]

theorem hostLoad_of_not_loadable {p : List InstrWord} {s : State} (hm : s.mode ≠ .running) (hp : ¬ Loadable p) :
    hostLoad p s = .next s.rejectLoad := by
  obtain ⟨h, -⟩ | ⟨-, h, -⟩ | ⟨-, -, e⟩ := hostLoad_cases p s
  · exact absurd h hm
  · exact absurd ((memory_wf_iff p).1 h) hp
  · exact e

/-- Settles O8: LOAD's check is `Loadable`, and each outcome is one known next state. -/
theorem loadAnswers : Obligations.LoadAnswers := by
  intro s p h hm
  constructor
  · exact step_of_load_loadable h hm
  · exact fun hp => (step_of_load h).trans (hostLoad_of_not_loadable (s := s.popHost) hm hp)

/-- Settles O9: LOAD reads the mode before it reads the program. -/
theorem loadWhileRunningStops : Obligations.LoadWhileRunningStops :=
  fun s _ h hm => (step_of_load h).trans (hostLoad_of_running (s := s.popHost) hm)

/-- Settles O11: an accepted LOAD leaves IDLE, so the second is accepted too, and it writes what stands
there already. -/
theorem loadIdempotent : Obligations.LoadIdempotent := by
  intro s p rest hs hm hp
  have first := step_of_load_loadable (hostCmd_of_cons hs) hm hp
  have hcmds : (s.popHost.loadProgram p).hostCmds = .load p :: rest := by simp [hs]
  have second := step_of_load_loadable (hostCmd_of_cons hcmds) (by simp) hp
  rw [popHost_of_cons hcmds] at second
  exact ⟨_, first, second⟩

/-! ### START (70_reset R214) -/

theorem step_of_start {s : State} (h : s.hostCmd = .start) : step s = .next (hostStart s.popHost) := by
  simp [step, h]

theorem hostStart_of_idle {s : State} (hm : s.mode = .idle) : hostStart s = { s with mode := .running } := by
  simp [hostStart, hm]

theorem hostStart_of_not_idle {s : State} (hm : s.mode ≠ .idle) : hostStart s = s := by
  obtain ⟨h, -⟩ | ⟨-, e⟩ := hostStart_cases s
  · exact absurd h hm
  · exact e

/-- Settles O10: START writes mode in IDLE and nothing elsewhere. -/
theorem startTransaction : Obligations.StartTransaction := by
  intro s h
  rw [step_of_start h]
  exact ⟨fun hm => congrArg _ (hostStart_of_idle (s := s.popHost) hm),
    fun hm => congrArg _ (hostStart_of_not_idle (s := s.popHost) hm)⟩

/-! ### Launching a run (70_reset R216, R217) -/

@[simp] theorem hostReset_mode (s : State) : (hostReset s).mode = .idle := rfl
@[simp] theorem hostReset_hostCmds (s : State) : (hostReset s).hostCmds = s.hostCmds := rfl

section
variable {s : State} {p : List InstrWord} {rest : List HostCmd} (hp : Loadable p) (k : Nat)
include hp

/-- The two moves of a launch without RESET: x and cf are the only state they keep. -/
theorem core_run_load_start (h : s.hostCmds = .load p :: .start :: rest) (hm : s.mode ≠ .running) :
    Sys2Proof.core.run (k + 2) s = Sys2Proof.core.run k
      { s with istore := p, pc := 0, mode := .running, err := none, loadOk := true, hostCmds := rest } := by
  have hload := step_of_load_loadable (hostCmd_of_cons h) hm hp
  have hcmds : (s.popHost.loadProgram p).hostCmds = .start :: rest := by simp [h]
  have hstart := step_of_start (hostCmd_of_cons hcmds)
  rw [popHost_of_cons hcmds, hostStart_of_idle rfl] at hstart
  rw [core_run_succ (k + 1) hload, core_run_succ k hstart]
  rfl

/-- The three moves of a launch with RESET, from any state. -/
theorem core_run_reset_load_start (h : s.hostCmds = .reset :: .load p :: .start :: rest) :
    Sys2Proof.core.run (k + 3) s = Sys2Proof.core.run k
      { State.reset with istore := p, mode := .running, loadOk := true, hostCmds := rest } := by
  have hreset := step_of_reset (hostCmd_of_cons h)
  have hcmds : (hostReset s.popHost).hostCmds = .load p :: .start :: rest := by simp [h]
  rw [core_run_succ (k + 2) hreset, core_run_load_start hp k hcmds (by simp)]
  rfl

end

/-- Settles O12: the state each launch leaves is known, and its fields are read off. -/
theorem launchState : Obligations.LaunchState := by
  intro s p rest hp
  constructor
  · exact fun h => ⟨_, core_run_reset_load_start hp 0 h, reset_x, rfl, rfl, rfl, rfl⟩
  · exact fun h hm => ⟨_, core_run_load_start hp 0 h hm, rfl, rfl, rfl, rfl, rfl⟩

theorem runResult_of_halted {s : State} (h : s.mode = .halted) : s.runResult = some s.x[0] := by
  simp [State.runResult, h]

/-- The fetch finds no word in an empty store, whatever pc is. -/
theorem step_of_empty_store {s : State} (hc : CoreMoves s) (h : s.istore = []) : step s = .next s.popHost.endRun :=
  stepEndsRun s hc (by simp [h])

theorem loadable_nil : Loadable [] := (memory_wf_iff []).1 memory_wf_nil

/-- Settles O13: the step of the core ends the run with x as it is, and the launch with RESET leaves x[0] = 0. -/
theorem emptyRunHalts : Obligations.EmptyRunHalts := by
  constructor
  · exact fun s hc h => ⟨_, step_of_empty_store hc h, rfl, runResult_of_halted rfl⟩
  · intro s h
    have hrun := (core_run_reset_load_start loadable_nil 1 h).trans
      (core_run_succ 0 (step_of_empty_store ⟨rfl, rfl⟩ rfl))
    refine ⟨_, hrun, rfl, (runResult_of_halted rfl).trans ?_⟩
    exact congrArg some (reset_x 0 (by decide))

/-! ### The output ports (70_reset R210; 10_state R31 to R33) -/

theorem Mode.code_inj {m m' : Mode} : m.code = m'.code ↔ m = m' := by
  cases m <;> cases m' <;> decide

theorem errCode_inj {e e' : Option ErrorKind} : errCode e = errCode e' ↔ e = e' := by
  obtain _ | _ | _ | _ := e <;> obtain _ | _ | _ | _ := e' <;> decide

/-- N fits the 64 bits of `dbg_n`, for it is at most IMEM_DEPTH. -/
theorem Inv.toNat_dbgN {s : State} (h : Inv s) : (readPorts s).dbgN.toNat = s.istore.length := by
  have hn := store_wf_length_le h.store_wf
  exact Nat.mod_eq_of_lt (show s.istore.length < 2 ^ 64 by omega)

/-- Settles O14: no two modes and no two error kinds share a code, and the other ports are the state's own fields. -/
theorem outputPorts : Obligations.OutputPorts := by
  intro s
  have hload : (readPorts s).loadOk = 1#1 ↔ s.loadOk = true := by cases h : s.loadOk <;> simp [readPorts, h]
  exact ⟨Mode.code_inj (m' := .idle), Mode.code_inj (m' := .running), Mode.code_inj (m' := .halted),
    Mode.code_inj (m' := .faulted), errCode_inj (e' := none), errCode_inj (e' := some .invalidRegister),
    errCode_inj (e' := some .divisionByZero), errCode_inj (e' := some .invalidProgramCounter),
    hload, rfl, rfl, rfl, runResult_of_halted, Inv.toNat_dbgN⟩

/-! ### A move is always answered (70_reset R232) -/

/-- Settles O31: a store in its form refuses no step of the core, and of the host's commands only LOAD in RUNNING stops
the model. -/
theorem alwaysAMove : Obligations.AlwaysAMove := by
  intro s hi hduty
  cases hc : s.hostCmd with
  | none =>
    rw [step_of_none hc]
    exact coreStep_answers hi.popHost.store_wf
  | reset => exact ⟨_, step_of_reset hc⟩
  | start => exact ⟨_, step_of_start hc⟩
  | load p =>
    obtain ⟨accepted, rejected⟩ := loadAnswers s p hc (hduty p hc)
    by_cases hp : Loadable p
    · exact ⟨_, accepted hp⟩
    · exact ⟨_, rejected hp⟩

end Sys2Proof.Machine
